-- ==== Sys2Proof/Word.lean ====
section
/-! DEFINITION. The word types of the spec (`00_scope.md` rule R11): unsigned bit vectors `u8`, `u12`, `u32`, `u64`
and `u72`. Bit 0 is the least significant bit (rule R10). -/

namespace Sys2Proof

/-- A byte, `u8` (rule R11). -/
abbrev U8 := BitVec 8

/-- A table-space word index, `u12` (rules R11, R76). -/
abbrev U12 := BitVec 12

/-- A remainder, a register value, a table word: `u32` (rule R11). -/
abbrev U32 := BitVec 32

/-- The argument field of a command word, `u64` (rules R11, R70). -/
abbrev U64 := BitVec 64

/-- A command word or an output record as it crosses a port, `u72` (rules R11, R70, R72). -/
abbrev U72 := BitVec 72

end Sys2Proof
end

