-- ==== Sys2Proof/Config.lean ====
section
/-! DEFINITION. What one engine instance fixes for its life: the parameters `W`, `SLICE_MAX` and `HIST_DEPTH`
(`00_scope.md` rules R7 to R9) and the polynomial (rule R6). The spec has no free value (rule R18,
`93_implementation_defined.md` section 2), so this file holds no opaque constant. -/

namespace Sys2Proof

/-- `POLY`, the reflected generator polynomial; fixed, not a parameter (rule R6). -/
def poly : U32 := 0xEDB88320#32

/-- `SLICE_MAX` in {1, 4, 8}: the widest slice command an instance implements (rule R8). -/
inductive SliceMax
  | one
  | four
  | eight
  deriving DecidableEq, Repr

/-- The number a `SliceMax` stands for (rule R8). -/
def SliceMax.width : SliceMax → Nat
  | .one => 1
  | .four => 4
  | .eight => 8

/-- The parameters of an engine instance (rules R7 to R9, R18), each with the bound its rule gives it, so that only
instances the spec allows can be written down. -/
structure Params where
  /-- `W`, the rolling-window width in bytes (rule R7). -/
  w : Nat
  /-- `SLICE_MAX` (rule R8). -/
  sliceMax : SliceMax
  /-- `HIST_DEPTH`, how many earlier window checksums the scan keeps (rule R9). -/
  histDepth : Nat
  /-- `W >= 1` (rule R7). -/
  w_pos : 0 < w := by decide
  /-- `HIST_DEPTH >= 1` (rule R9). -/
  histDepth_pos : 0 < histDepth := by decide
  deriving DecidableEq, Repr

/-- The instance `State.reset` describes: `W = 16` and `SLICE_MAX = 8` are the spec's reference configuration
(rules R7, R8). DESIGN CHOICE (log entry 2, unsafe): rule R9 leaves `HIST_DEPTH` open; `2^32` is taken, the source's
text read literally (rule R188). Statements range over every `Params`. -/
def Params.reference : Params := { w := 16, sliceMax := .eight, histDepth := 4294967296 }

end Sys2Proof
end

