-- ==== Sys2Proof/Syntax.lean ====
section
/-! DEFINITION. The commands as data: one constructor per row of `spec/opcode_table.json` (`30_encoding.md` rule R77),
with the operand fields of the row's format (rule R71). -/

namespace Sys2Proof

/-- A command of the CRC32E command set (rules R71, R77). Every value of every field has an encoding, so a register
number above 3 and a table index above 2303 are commands too; they fault when executed (rules R233, R235). -/
inductive Instr
  /-- `NOP` (format Z, rule R210). -/
  | nop
  /-- `RDREG reg` (format R, rule R211). -/
  | rdreg (reg : U8)
  /-- `WRREG reg, val` (format RW, rule R212). -/
  | wrreg (reg : U8) (val : U32)
  /-- `TBL_READ idx` (format T, rule R120). -/
  | tblRead (idx : U12)
  /-- `CRC_BYTE b0` (format B1, rule R131). -/
  | crcByte (b0 : U8)
  /-- `CRC_SLICE4 b0, b1, b2, b3` (format B4, rule R132). -/
  | crcSlice4 (b0 b1 b2 b3 : U8)
  /-- `CRC_SLICE8 b0, ..., b7` (format B8, rule R133). -/
  | crcSlice8 (b0 b1 b2 b3 b4 b5 b6 b7 : U8)
  /-- `ROLL_STEP inb, outb` (format B2, rule R160). -/
  | rollStep (inb outb : U8)
  /-- `SCAN_BYTE b0` (format B1, rule R183). -/
  | scanByte (b0 : U8)
  /-- `SCAN_END` (format Z, rule R195). -/
  | scanEnd
  deriving DecidableEq, Repr

end Sys2Proof
end

