-- ==== Sys2Proof/WellFormed.lean ====
section
/-! DEFINITION. Which commands exist on an instance (`00_scope.md` rule R8). It is the only check a command needs: its
fields have exactly the widths of the encoding, and every field value is encodable (`30_encoding.md` rule R71). -/

namespace Sys2Proof

/-- `CRC_SLICE4` exists when `SLICE_MAX >= 4`, `CRC_SLICE8` when `SLICE_MAX = 8`, every other command always
(rule R8). -/
def Instr.wellFormed (sm : SliceMax) : Instr → Bool
  | .nop => true
  | .rdreg _ => true
  | .wrreg _ _ => true
  | .tblRead _ => true
  | .crcByte _ => true
  | .crcSlice4 _ _ _ _ => decide (4 ≤ sm.width)
  | .crcSlice8 _ _ _ _ _ _ _ _ => decide (sm.width = 8)
  | .rollStep _ _ => true
  | .scanByte _ => true
  | .scanEnd => true

end Sys2Proof
end

