-- ==== Sys2Proof/Decode.lean ====
section
/-! DEFINITION. The command word (`30_encoding.md` rules R70, R71, R74 to R82): its fields, the opcode map, the total
decoder and the encoder. -/

namespace Sys2Proof

/-- The field `OP = C[71:64]` of a command word (rule R70). -/
def opOf (c : U72) : U8 := c.extractLsb' 64 8

/-- The field `ARG = C[63:0]` of a command word (rule R70). -/
def argOf (c : U72) : U64 := c.extractLsb' 0 64

/-- Byte lane `k` of `ARG`, `ARG[8k+7:8k]`: byte `k` of the command in stream order (rules R50, R74). -/
def lane (arg : U64) (k : Nat) : U8 := arg.extractLsb' (8 * k) 8

/-- The ten rows of the opcode map (rule R77). -/
inductive Mnemonic
  | nop | rdreg | wrreg | tblRead | crcByte | crcSlice4 | crcSlice8 | rollStep | scanByte | scanEnd
  deriving DecidableEq, Repr

/-- The eight argument formats (rule R71). -/
inductive Format
  | z | r | rw | t | b1 | b2 | b4 | b8
  deriving DecidableEq, Repr

/-- Why a word is no command; each makes it illegal (rule R78). -/
inductive DecodeError
  /-- `OP` is none of the ten listed values. -/
  | unknownOpcode
  /-- `OP` is a slice command wider than the instance's `SLICE_MAX`. -/
  | absentCommand
  /-- `OP` is listed and a reserved bit of `ARG` is not 0 (rule R79). -/
  | reservedBits
  deriving DecidableEq, Repr

/-- The rows in the order of rule R77. -/
def Mnemonic.all : List Mnemonic :=
  [.nop, .rdreg, .wrreg, .tblRead, .crcByte, .crcSlice4, .crcSlice8, .rollStep, .scanByte, .scanEnd]

/-- The `OP` value of a row (rule R77). -/
def Mnemonic.op : Mnemonic → U8
  | .nop => 0x00#8
  | .rdreg => 0x01#8
  | .wrreg => 0x02#8
  | .tblRead => 0x03#8
  | .crcByte => 0x10#8
  | .crcSlice4 => 0x11#8
  | .crcSlice8 => 0x12#8
  | .rollStep => 0x20#8
  | .scanByte => 0x30#8
  | .scanEnd => 0x31#8

/-- The format of a row (rules R71, R77). -/
def Mnemonic.format : Mnemonic → Format
  | .nop => .z
  | .rdreg => .r
  | .wrreg => .rw
  | .tblRead => .t
  | .crcByte => .b1
  | .crcSlice4 => .b4
  | .crcSlice8 => .b8
  | .rollStep => .b2
  | .scanByte => .b1
  | .scanEnd => .z

/-- The bits of `ARG` a format reserves: those its row of rule R71 lists no field for. -/
def Format.reserved : Format → U64
  | .z => 0xFFFFFFFFFFFFFFFF#64
  | .r => 0xFFFFFF00FFFFFFFF#64
  | .rw => 0xFFFFFF0000000000#64
  | .t => 0xFFFFFFFFFFFFF000#64
  | .b1 => 0xFFFFFFFFFFFFFF00#64
  | .b2 => 0xFFFFFFFFFFFF0000#64
  | .b4 => 0xFFFFFFFF00000000#64
  | .b8 => 0x0000000000000000#64

/-- The `match` column of rule R77. -/
def Mnemonic.matchWord : Mnemonic → U72
  | .nop => 0x000000000000000000#72
  | .rdreg => 0x010000000000000000#72
  | .wrreg => 0x020000000000000000#72
  | .tblRead => 0x030000000000000000#72
  | .crcByte => 0x100000000000000000#72
  | .crcSlice4 => 0x110000000000000000#72
  | .crcSlice8 => 0x120000000000000000#72
  | .rollStep => 0x200000000000000000#72
  | .scanByte => 0x300000000000000000#72
  | .scanEnd => 0x310000000000000000#72

/-- The `mask` column of rule R77: `OP` and every reserved bit. -/
def Mnemonic.maskWord : Mnemonic → U72
  | .nop => 0xFFFFFFFFFFFFFFFFFF#72
  | .rdreg => 0xFFFFFFFF00FFFFFFFF#72
  | .wrreg => 0xFFFFFFFF0000000000#72
  | .tblRead => 0xFFFFFFFFFFFFFFF000#72
  | .crcByte => 0xFFFFFFFFFFFFFFFF00#72
  | .crcSlice4 => 0xFFFFFFFFFF00000000#72
  | .crcSlice8 => 0xFF0000000000000000#72
  | .rollStep => 0xFFFFFFFFFFFFFF0000#72
  | .scanByte => 0xFFFFFFFFFFFFFFFF00#72
  | .scanEnd => 0xFFFFFFFFFFFFFFFFFF#72

/-- The least `SLICE_MAX` a row exists with (rules R8, R77). -/
def Mnemonic.minSlice : Mnemonic → Nat
  | .crcSlice4 => 4
  | .crcSlice8 => 8
  | .nop | .rdreg | .wrreg | .tblRead | .crcByte | .rollStep | .scanByte | .scanEnd => 1

/-- A word selects a row of an instance's opcode map: the row exists there and `C & mask = match` (rule R77). -/
def Mnemonic.Selects (sm : SliceMax) (m : Mnemonic) (c : U72) : Prop :=
  m.minSlice ≤ sm.width ∧ c &&& m.maskWord = m.matchWord

/-- The row with a given `OP` value, found by `OP` alone (rule R70). -/
def Mnemonic.ofOp (op : U8) : Option Mnemonic := Mnemonic.all.find? (fun m => m.op == op)

/-- The operands of a row read from `ARG` (rules R71, R74 to R76). -/
def Mnemonic.read (arg : U64) : Mnemonic → Instr
  | .nop => .nop
  | .rdreg => .rdreg (arg.extractLsb' 32 8)
  | .wrreg => .wrreg (arg.extractLsb' 32 8) (arg.extractLsb' 0 32)
  | .tblRead => .tblRead (arg.extractLsb' 0 12)
  | .crcByte => .crcByte (lane arg 0)
  | .crcSlice4 => .crcSlice4 (lane arg 0) (lane arg 1) (lane arg 2) (lane arg 3)
  | .crcSlice8 =>
    .crcSlice8 (lane arg 0) (lane arg 1) (lane arg 2) (lane arg 3) (lane arg 4) (lane arg 5) (lane arg 6) (lane arg 7)
  | .rollStep => .rollStep (lane arg 0) (lane arg 1)
  | .scanByte => .scanByte (lane arg 0)
  | .scanEnd => .scanEnd

/-- The decoder of an instance, total on the 2^72 words (rules R70, R78 to R81): `OP` gives the row, then the reserved
bits of `ARG` are checked. -/
def decode (sm : SliceMax) (c : U72) : Except DecodeError Instr :=
  match Mnemonic.ofOp (opOf c) with
  | none => .error .unknownOpcode
  | some m =>
    if sm.width < m.minSlice then .error .absentCommand
    else if argOf c &&& m.format.reserved ≠ 0#64 then .error .reservedBits
    else .ok (m.read (argOf c))

/-- The row of a command. -/
def Instr.mnemonic : Instr → Mnemonic
  | .nop => .nop
  | .rdreg _ => .rdreg
  | .wrreg _ _ => .wrreg
  | .tblRead _ => .tblRead
  | .crcByte _ => .crcByte
  | .crcSlice4 _ _ _ _ => .crcSlice4
  | .crcSlice8 _ _ _ _ _ _ _ _ => .crcSlice8
  | .rollStep _ _ => .rollStep
  | .scanByte _ => .scanByte
  | .scanEnd => .scanEnd

/-- The command word of a command, as the table of rule R82 writes it. -/
def encode : Instr → U72
  | .nop => 0x00#8 ++ 0#64
  | .rdreg reg => 0x01#8 ++ 0#24 ++ reg ++ 0#32
  | .wrreg reg val => 0x02#8 ++ 0#24 ++ reg ++ val
  | .tblRead idx => 0x03#8 ++ 0#52 ++ idx
  | .crcByte b0 => 0x10#8 ++ 0#56 ++ b0
  | .crcSlice4 b0 b1 b2 b3 => 0x11#8 ++ 0#32 ++ b3 ++ b2 ++ b1 ++ b0
  | .crcSlice8 b0 b1 b2 b3 b4 b5 b6 b7 => 0x12#8 ++ b7 ++ b6 ++ b5 ++ b4 ++ b3 ++ b2 ++ b1 ++ b0
  | .rollStep inb outb => 0x20#8 ++ 0#48 ++ outb ++ inb
  | .scanByte b0 => 0x30#8 ++ 0#56 ++ b0
  | .scanEnd => 0x31#8 ++ 0#64

/-- The command word that `nbits` bits `w` of the opcode table's numbering stand for: the table's bit 0 is `C[0]`, and
every bit from `nbits` up is 0. DEDUCED (log entry 8): a command has 72 bits (rule R70), so bits above 71 are none. -/
def tableWord (nbits w : Nat) : U72 := BitVec.ofNat 72 (w % 2 ^ nbits)

/-- The command the decoder reads from a word of the opcode table's numbering. DEDUCED (log entry 8): on the reference
instance, `SLICE_MAX = 8` (rule R8), where every row of the table exists. -/
def decodeTableWord (nbits w : Nat) : Option Instr :=
  match decode .eight (tableWord nbits w) with
  | .ok i => some i
  | .error _ => none

end Sys2Proof
end

