-- ==== Sys2Proof/Machine/State.lean ====
section
/-! DEFINITION. The state of one engine instance, as plain data (`10_state.md`), its reset value (rule R41), and the
reasons a step can stop. -/

namespace Sys2Proof.Machine

/-- The five fault causes of the engine (`60_exceptions.md` rule R231). An engine fault is a NEXT state (rule R240): it
is not a stop of the model. -/
inductive Cause
  /-- Code 1: the word matches no row of the opcode map (rule R232). -/
  | illegalCommand
  /-- Code 2: `RDREG` or `WRREG` with `reg` 4 to 255 (rule R233). -/
  | badRegister
  /-- Code 3: `WRREG` with `reg` 1, 2 or 3 (rule R234). -/
  | readOnlyRegister
  /-- Code 4: `TBL_READ` with `idx` 2304 to 4095 (rule R235). -/
  | tableIndexRange
  /-- Code 5: `SCAN_BYTE` with `SCAN_POS = 0xFFFFFFFF` (rule R236). -/
  | positionOverflow
  deriving DecidableEq, Repr

/-- The four addressable registers (rule R22). -/
inductive RegName
  | rem
  | scanSum
  | scanPos
  | status
  deriving DecidableEq, Repr

/-- An output record (`30_encoding.md` rules R72, R73). `Record.word` gives its 72 bits (log entry 6). -/
inductive Record
  /-- `RSP(v)`. -/
  | rsp (v : U32)
  /-- `MATCH(a, b)`: `offset_a = a`, `offset_b = b`. -/
  | matchPair (a b : U32)
  /-- `FAULT(c, op)`. -/
  | fault (cause : Cause) (op : U8)
  deriving DecidableEq, Repr

/-- `HIST` as the finite map from window offset to checksum of rule R33: pairs with strictly rising offsets
(`Hist.Wf` in Ops.lean; log entry 9). -/
abbrev Hist := List (Nat × U32)

/-- The machine stops with a fault: never. Every command word either executes or takes one of the engine's five faults,
and a fault is a next state after which the engine goes on (rules R80, R240); the engine never halts (rule R19). So
this type has no constructor (log entry 14; safe). -/
inductive Fault
  deriving DecidableEq, Repr

/-- No meaning for the instruction. -/
inductive Refusal
  /-- Answered by an arm of `exec` whose instruction has no meaning yet; no arm of this model answers it. Safe. -/
  | notModelled (mnemonic : String)
  deriving DecidableEq, Repr

/-- The state of an engine (rules R18, R41). `STATUS` is stored as its two stored fields; `WVALID` and the reserved
bits are computed when `STATUS` is read (rules R27, R30; `State.statusWord`; DEDUCED, log entry 11, safe). The table space is a constant function of
`W` (`memRead`; rule R18, log entry 12). `params`, `cmds` and `taken` are the model's own fields. -/
structure State where
  /-- The parameters of the instance, which no step changes (rule R18; log entry 1). -/
  params : Params
  /-- `REM`, register 0 (rule R23). -/
  rem : U32
  /-- `SCAN_SUM`, register 1 (rule R24). -/
  scanSum : U32
  /-- `SCAN_POS`, register 2 (rule R25). -/
  scanPos : U32
  /-- `STATUS.ERR` (rule R28). -/
  err : Bool
  /-- `STATUS.CAUSE` (rule R29). -/
  cause : BitVec 4
  /-- `WBUF[0]` to `WBUF[W-1]` (rule R32). -/
  wbuf : List U8
  /-- `HIST` (rule R33). -/
  hist : Hist
  /-- `OUT`, every record since reset, oldest first (rule R35). -/
  out : List Record
  /-- The command words the host has offered and the engine has not accepted yet, oldest first: the host's input
  (rules R17, R21, R273; log entry 3). -/
  cmds : List U72
  /-- How many records of `OUT` the host has taken from the output port (rules R17, R273; log entry 4). -/
  taken : Nat
  deriving DecidableEq, Repr

/-- The reset state of an instance (rules R41, R260 to R268). No command word is waiting and no record has been taken
(rule R260: both are discarded). -/
def State.resetOf (p : Params) : State where
  params := p
  rem := 0#32
  scanSum := 0#32
  scanPos := 0#32
  err := false
  cause := 0#4
  wbuf := List.replicate p.w 0#8
  hist := []
  out := []
  cmds := []
  taken := 0

/-- The machine right after reset: the reference instance (rules R7, R8; log entry 2). -/
def State.reset : State := State.resetOf Params.reference

end Sys2Proof.Machine
end

