-- ==== Sys2Proof/Machine/Flags.lean ====
section
/-! DEFINITION. The flag-like bits (`10_state.md` rules R26 to R31): the three fields of `STATUS` and the word a read of
`STATUS` returns. The engine has no condition codes (rule R31). -/

namespace Sys2Proof.Machine

/-- `STATUS.WVALID`, the comparison `SCAN_POS >= W` at the time of the read (rule R27). -/
def State.wvalid (s : State) : Bool := decide (s.params.w ≤ s.scanPos.toNat)

/-- The value of register `STATUS`: `{0x000000, CAUSE[3:0], 0b00, ERR, WVALID}` (rules R26, R30, R211). -/
def State.statusWord (s : State) : U32 :=
  0#24 ++ s.cause ++ 0#2 ++ BitVec.ofBool s.err ++ BitVec.ofBool s.wvalid

/-- The 4-bit code of a fault cause (rule R231). -/
def Cause.code : Cause → BitVec 4
  | .illegalCommand => 1#4
  | .badRegister => 2#4
  | .readOnlyRegister => 3#4
  | .tableIndexRange => 4#4
  | .positionOverflow => 5#4

/-- The cause a 4-bit code stands for: 0 and 6 to 15 stand for none (rule R231). -/
def Cause.ofCode (c : BitVec 4) : Option Cause :=
  if c = 1#4 then some .illegalCommand
  else if c = 2#4 then some .badRegister
  else if c = 3#4 then some .readOnlyRegister
  else if c = 4#4 then some .tableIndexRange
  else if c = 5#4 then some .positionOverflow
  else none

end Sys2Proof.Machine
end

