-- ==== Sys2Proof/Machine/Operands.lean ====
section
/-! DEFINITION. Operand assembly (`30_encoding.md` rules R74, R75; `00_scope.md` rule R14): bytes of words, `le32`,
register numbers. -/

namespace Sys2Proof.Machine

/-- Byte `k` of a `u32`, `v[8k+7:8k]` (rule R10). -/
def byteOf (v : U32) (k : Nat) : U8 := v.extractLsb' (8 * k) 8

/-- `zext_32(b)` of a byte (rule R11). -/
def zext32 (b : U8) : U32 := b.setWidth 32

/-- `le32(b0, b1, b2, b3) = {b3, b2, b1, b0}` (rule R14). -/
def le32 (b0 b1 b2 b3 : U8) : U32 := b3 ++ b2 ++ b1 ++ b0

/-- The register a number names; 4 to 255 name none (rules R22, R75). -/
def RegName.ofNumber (reg : U8) : Option RegName :=
  if reg = 0#8 then some .rem
  else if reg = 1#8 then some .scanSum
  else if reg = 2#8 then some .scanPos
  else if reg = 3#8 then some .status
  else none

/-- The number of a register (rule R22). -/
def RegName.number : RegName → U8
  | .rem => 0#8
  | .scanSum => 1#8
  | .scanPos => 2#8
  | .status => 3#8

end Sys2Proof.Machine
end

