-- ==== Sys2Proof/Machine/Ops.lean ====
section
/-! DEFINITION. The named operations every meaning is written over: the arithmetic of the Table Generator
(`40_table_generator.md`), the table space (`20_memory.md` rule R56), registers, `WBUF`, `HIST`, output records, raising
a fault (`60_exceptions.md` rule R240) and accepting a command word. -/

namespace Sys2Proof.Machine

/-! ### The bit step, the byte step and `crc` -/

/-- `update_bit(r, bit)`, one cycle of the reflected shift register (rule R100). -/
def updateBit (r : U32) (bit : Bool) : U32 :=
  (r >>> 1) ^^^ (if Bool.xor (r.getLsbD 0) bit then poly else 0#32)

/-- `update_byte(r, b)`: eight bit steps, bit 0 of the byte first (rules R51, R102). -/
def updateByte (r : U32) (b : U8) : U32 :=
  let r1 := updateBit r (b.getLsbD 0)
  let r2 := updateBit r1 (b.getLsbD 1)
  let r3 := updateBit r2 (b.getLsbD 2)
  let r4 := updateBit r3 (b.getLsbD 3)
  let r5 := updateBit r4 (b.getLsbD 4)
  let r6 := updateBit r5 (b.getLsbD 5)
  let r7 := updateBit r6 (b.getLsbD 6)
  updateBit r7 (b.getLsbD 7)

/-- The reference function `crc(r, data)` (rule R15). -/
def crc (r : U32) : List U8 → U32
  | [] => r
  | b :: rest => crc (updateByte r b) rest

/-- The zero-byte advance `Z^k(x)` (rule R107). -/
def zeroAdvance : Nat → U32 → U32
  | 0, x => x
  | k + 1, x => zeroAdvance k (updateByte x 0#8)

/-! ### The table space -/

/-- Base table entry `G[0][i]` (rule R110). -/
def baseEntry (i : U8) : U32 := updateByte 0#32 i

/-- Slice group entry `G[k][i]`: the base entry advanced by `k` zero bytes, one group at a time (rule R111). -/
def sliceEntry : Nat → U8 → U32
  | 0, i => baseEntry i
  | k + 1, i => updateByte (sliceEntry k i) 0#8

/-- Rolling table entry `RT[i]`: one byte step from 0, then exactly `W - 1` zero bytes (rule R113). -/
def rollEntry (w : Nat) (i : U8) : U32 := zeroAdvance (w - 1) (updateByte 0#32 i)

/-- `MemRead(idx, 4)`: the table-space word at an index 0 to 2303; no other index can be named here (rules R13, R53,
R56). Words 0 to 2047 are the slice groups, words 2048 to 2303 the rolling table. -/
def memRead (w : Nat) (idx : Fin 2304) : U32 :=
  if idx.val < 2048 then sliceEntry (idx.val / 256) (BitVec.ofNat 8 (idx.val % 256))
  else rollEntry w (BitVec.ofNat 8 (idx.val - 2048))

/-- `G[k][i]`, the lookup at index `256*k + i` (rules R13, R217). -/
def groupRead (w : Nat) (k : Fin 8) (i : U8) : U32 :=
  memRead w ⟨256 * k.val + i.toNat, by have := i.isLt; have := k.isLt; omega⟩

/-- `RT[i]`, the lookup at index `2048 + i` (rules R13, R217). -/
def rollRead (w : Nat) (i : U8) : U32 := memRead w ⟨2048 + i.toNat, by have := i.isLt; omega⟩

/-- The rolling update: cancel the outgoing byte, then take in the incoming byte (rules R160, R186; the order is the
resolution of conflict C1). -/
def rollUpdate (w : Nat) (sum : U32) (inb outb : U8) : U32 := updateByte (sum ^^^ rollRead w outb) inb

/-! ### Field updates -/

/-- Write `REM`. -/
def State.withRem (s : State) (v : U32) : State := { s with rem := v }

/-- Write `SCAN_SUM`. -/
def State.withScanSum (s : State) (v : U32) : State := { s with scanSum := v }

/-- Write `SCAN_POS`. -/
def State.withScanPos (s : State) (v : U32) : State := { s with scanPos := v }

/-- Write `STATUS.ERR` and `STATUS.CAUSE`. -/
def State.withStatus (s : State) (err : Bool) (cause : BitVec 4) : State := { s with err := err, cause := cause }

/-- Write `WBUF`. -/
def State.withWbuf (s : State) (b : List U8) : State := { s with wbuf := b }

/-- Write `HIST`. -/
def State.withHist (s : State) (h : Hist) : State := { s with hist := h }

/-- Write `OUT`. -/
def State.withOut (s : State) (rs : List Record) : State := { s with out := rs }

/-- Write the waiting command words. -/
def State.withCmds (s : State) (cs : List U72) : State := { s with cmds := cs }

/-- Write the count of taken records. -/
def State.withTaken (s : State) (n : Nat) : State := { s with taken := n }

/-! ### Registers -/

/-- Read a register; reading changes nothing (rules R22, R37, R55). -/
def State.readReg (s : State) : RegName → U32
  | .rem => s.rem
  | .scanSum => s.scanSum
  | .scanPos => s.scanPos
  | .status => s.statusWord

/-! ### `WBUF` -/

/-- The slot of byte number `n` of a stream, `n mod W` (rule R32). -/
def slotOf (w n : Nat) : Nat := n % w

/-- Read a slot of `WBUF`. DESIGN CHOICE (log entry 10): a slot beyond the list, which only a state whose list is shorter
than `W` has, reads 0. -/
def wbufRead (b : List U8) (slot : Nat) : U8 := b.getD slot 0#8

/-- Write a slot of `WBUF` (rule R32). -/
def wbufWrite (b : List U8) (slot : Nat) (v : U8) : List U8 := b.set slot v

/-- `WBUF` with every byte 0x00 (rules R195, R265). -/
def wbufClear (w : Nat) : List U8 := List.replicate w 0#8

/-! ### `HIST` -/

/-- The canonical form of `HIST`: offsets strictly rising, so no offset twice. -/
abbrev Hist.Wf (h : Hist) : Prop := h.Pairwise (fun x y => x.1 < y.1)

/-- `HIST[a]`, where it is defined (rule R33). -/
def Hist.lookup : Hist → Nat → Option U32
  | [], _ => none
  | (k, v) :: t, a => if k = a then some v else Hist.lookup t a

/-- `HIST[a] <- v` (rule R188). -/
def Hist.insert : Hist → Nat → U32 → Hist
  | [], a, v => [(a, v)]
  | (k, x) :: t, a, v =>
    if a < k then (a, v) :: (k, x) :: t
    else if a = k then (a, v) :: t
    else (k, x) :: Hist.insert t a v

/-- Remove `HIST[a]` (rule R188). -/
def Hist.remove (h : Hist) (a : Nat) : Hist := h.filter (fun e => e.1 != a)

/-- The offset the comparison starts from when the window at `o` is completed: `o - HIST_DEPTH`, or 0 (rule R183). -/
def histLow (depth o : Nat) : Nat := if depth < o then o - depth else 0

/-- The offsets `a` with `lo <= a < o` and `HIST[a] = v`, in rising order (rules R183, R187). -/
def Hist.equalOffsets (h : Hist) (lo o : Nat) (v : U32) : List Nat :=
  (h.filter (fun e => decide (lo ≤ e.1) && decide (e.1 < o) && e.2 == v)).map (fun e => e.1)

/-- The history after the window at offset `o` with checksum `v` has been compared: `HIST[o] <- v`, and the entry
`HIST_DEPTH` offsets back is removed (rule R188). -/
def Hist.update (h : Hist) (depth o : Nat) (v : U32) : Hist :=
  if depth ≤ o then (h.insert o v).remove (o - depth) else h.insert o v

/-! ### Output records -/

/-- The 72 bits of a record (rules R72, R73): `KIND` in bits 71:64, the payload in bits 63:0. -/
def Record.word : Record → U72
  | .rsp v => 0x01#8 ++ 0#32 ++ v
  | .matchPair a b => 0x02#8 ++ b ++ a
  | .fault c op => 0xFF#8 ++ 0#48 ++ op ++ (c.code.setWidth 8)

/-- The record a 72-bit output word stands for; `none` for a word the engine never produces (rule R73). -/
def Record.ofWord (o : U72) : Option Record :=
  let kind := o.extractLsb' 64 8
  if kind = 0x01#8 then
    if o.extractLsb' 32 32 = 0#32 then some (.rsp (o.extractLsb' 0 32)) else none
  else if kind = 0x02#8 then some (.matchPair (o.extractLsb' 0 32) (o.extractLsb' 32 32))
  else if kind = 0xFF#8 then
    if o.extractLsb' 16 48 = 0#48 ∧ o.extractLsb' 4 4 = 0#4 then
      match Cause.ofCode (o.extractLsb' 0 4) with
      | some c => some (.fault c (o.extractLsb' 8 8))
      | none => none
    else none
  else none

/-- `emit r`: append one record to `OUT` (rules R13, R35). -/
def emit (r : Record) (s : State) : State := s.withOut (s.out ++ [r])

/-- Append records in order (rule R272). -/
def emitAll (rs : List Record) (s : State) : State := s.withOut (s.out ++ rs)

/-- The output stream as the 72-bit words the host receives (rules R35, R72). -/
def State.outWords (s : State) : List U72 := s.out.map Record.word

/-! ### Faults -/

/-- `raise F(op)` (rule R240): the first cause is kept, `ERR` is set, one `FAULT` record is emitted, and nothing else
happens. There is no saved pc, no saved status, no handler and no return (rules R240, R242). -/
def raise (f : Cause) (op : U8) (s : State) : State :=
  emit (.fault f op) (s.withStatus true (if s.err then s.cause else f.code))

/-! ### The command port -/

/-- Accept the next command word, if one is waiting (rules R21, R273). -/
def accept (s : State) : Option (U72 × State) :=
  match s.cmds with
  | [] => none
  | c :: rest => some (c, s.withCmds rest)

end Sys2Proof.Machine
end

