-- ==== Sys2Proof/Machine/Batched.lean ====
section
/-! DEFINITION. Batched computation: `CRC_BYTE`, `CRC_SLICE4`, `CRC_SLICE8` (`41_crc_batched.md`), by table lookups as
their pseudocode has them. -/

namespace Sys2Proof.Machine

/-- The table form of one byte step (rule R131). -/
def stepByTable (w : Nat) (r : U32) (b0 : U8) : U32 :=
  (r >>> 8) ^^^ groupRead w 0 (byteOf (r ^^^ zext32 b0) 0)

/-- The four-lookup step on `d = le32(b0, b1, b2, b3)` (rule R132). -/
def stepByFour (w : Nat) (r d : U32) : U32 :=
  let v := r ^^^ d
  groupRead w 3 (byteOf v 0) ^^^ groupRead w 2 (byteOf v 1) ^^^ groupRead w 1 (byteOf v 2) ^^^ groupRead w 0 (byteOf v 3)

/-- The eight-lookup step on `lo = le32(b0..b3)` and `hi = le32(b4..b7)` (rule R133). -/
def stepByEight (w : Nat) (r lo hi : U32) : U32 :=
  let v := r ^^^ lo
  groupRead w 7 (byteOf v 0) ^^^ groupRead w 6 (byteOf v 1) ^^^ groupRead w 5 (byteOf v 2) ^^^ groupRead w 4 (byteOf v 3)
    ^^^ groupRead w 3 (byteOf hi 0) ^^^ groupRead w 2 (byteOf hi 1) ^^^ groupRead w 1 (byteOf hi 2)
    ^^^ groupRead w 0 (byteOf hi 3)

/-- `CRC_BYTE b0` (rule R131). -/
def execCrcByte (b0 : U8) (s : State) : Host.Outcome State Fault Refusal :=
  .next (s.withRem (stepByTable s.params.w s.rem b0))

/-- `CRC_SLICE4 b0, b1, b2, b3` (rule R132). DEDUCED (log entry 7, safe): on an instance without it the command takes the
fault its word takes in decode (rule R78); through `step` decode takes it first. -/
def execCrcSlice4 (b0 b1 b2 b3 : U8) (s : State) : Host.Outcome State Fault Refusal :=
  if s.params.sliceMax.width < 4 then .next (raise .illegalCommand Mnemonic.crcSlice4.op s)
  else .next (s.withRem (stepByFour s.params.w s.rem (le32 b0 b1 b2 b3)))

/-- `CRC_SLICE8 b0, ..., b7` (rule R133). On an instance without it: as `CRC_SLICE4` (log entry 7). -/
def execCrcSlice8 (b0 b1 b2 b3 b4 b5 b6 b7 : U8) (s : State) : Host.Outcome State Fault Refusal :=
  if s.params.sliceMax.width < 8 then .next (raise .illegalCommand Mnemonic.crcSlice8.op s)
  else .next (s.withRem (stepByEight s.params.w s.rem (le32 b0 b1 b2 b3) (le32 b4 b5 b6 b7)))

end Sys2Proof.Machine
end

