-- ==== Sys2Proof/Machine/Rolling.lean ====
section
/-! DEFINITION. Rolling computation: `ROLL_STEP` (`42_rolling.md`). -/

namespace Sys2Proof.Machine

/-- `ROLL_STEP inb, outb` (rule R160), executed as written whatever `REM` holds (rule R164). -/
def execRollStep (inb outb : U8) (s : State) : Host.Outcome State Fault Refusal :=
  .next (s.withRem (rollUpdate s.params.w s.rem inb outb))

end Sys2Proof.Machine
end

