-- ==== Sys2Proof/Machine/Scan.lean ====
section
/-! DEFINITION. Match detection: `SCAN_BYTE` and `SCAN_END` (`43_match_scan.md`). -/

namespace Sys2Proof.Machine

/-- The checksum after byte `b0`: the fill phase advances it (rule R185), the slide phase rolls it with the byte of the
slot that is about to be overwritten (rule R186). -/
def scanChecksum (b0 : U8) (s : State) : U32 :=
  if s.scanPos.toNat < s.params.w then updateByte s.scanSum b0
  else rollUpdate s.params.w s.scanSum b0 (wbufRead s.wbuf (slotOf s.params.w s.scanPos.toNat))

/-- The state with byte `b0` taken in and no window compared yet: `WBUF`, `SCAN_SUM` and `SCAN_POS` (rule R183). -/
def scanShift (b0 : U8) (s : State) : State :=
  ((s.withWbuf (wbufWrite s.wbuf (slotOf s.params.w s.scanPos.toNat) b0)).withScanSum (scanChecksum b0 s)).withScanPos
    (s.scanPos + 1#32)

/-- The `MATCH` records of the window at offset `o` with checksum `v` (rule R187). -/
def matchRecords (h : Hist) (depth o : Nat) (v : U32) : List Record :=
  (h.equalOffsets (histLow depth o) o v).map (fun a => .matchPair (BitVec.ofNat 32 a) (BitVec.ofNat 32 o))

/-- Complete the window at offset `o` with checksum `v`: report, then remember (rules R187, R188). -/
def completeWindow (o : Nat) (v : U32) (s : State) : State :=
  (emitAll (matchRecords s.hist s.params.histDepth o v) s).withHist (s.hist.update s.params.histDepth o v)

/-- `SCAN_BYTE b0` (rule R183); the position check comes before every effect (rules R184, R241). -/
def execScanByte (b0 : U8) (s : State) : Host.Outcome State Fault Refusal :=
  if s.scanPos = 0xFFFFFFFF#32 then .next (raise .positionOverflow Mnemonic.scanByte.op s)
  else if s.params.w ≤ s.scanPos.toNat + 1 then
    .next (completeWindow (s.scanPos.toNat + 1 - s.params.w) (scanChecksum b0 s) (scanShift b0 s))
  else .next (scanShift b0 s)

/-- `SCAN_END` (rule R195). -/
def execScanEnd (s : State) : Host.Outcome State Fault Refusal :=
  .next ((((s.withScanSum 0#32).withScanPos 0#32).withWbuf (wbufClear s.params.w)).withHist [])

end Sys2Proof.Machine
end

