-- ==== Sys2Proof/Machine/System.lean ====
section
/-! DEFINITION. The system commands `NOP`, `RDREG`, `WRREG` (`44_system.md`). -/

namespace Sys2Proof.Machine

/-- `NOP` (rule R210). -/
def execNop (s : State) : Host.Outcome State Fault Refusal := .next s

/-- `RDREG reg` (rule R211). -/
def execRdreg (reg : U8) (s : State) : Host.Outcome State Fault Refusal :=
  match RegName.ofNumber reg with
  | none => .next (raise .badRegister Mnemonic.rdreg.op s)
  | some r => .next (emit (.rsp (s.readReg r)) s)

/-- `WRREG reg, val` (rule R212): only `REM` can be written; the register-number check comes before the access check
(rule R239). -/
def execWrreg (reg : U8) (val : U32) (s : State) : Host.Outcome State Fault Refusal :=
  match RegName.ofNumber reg with
  | none => .next (raise .badRegister Mnemonic.wrreg.op s)
  | some .rem => .next (s.withRem val)
  | some .scanSum => .next (raise .readOnlyRegister Mnemonic.wrreg.op s)
  | some .scanPos => .next (raise .readOnlyRegister Mnemonic.wrreg.op s)
  | some .status => .next (raise .readOnlyRegister Mnemonic.wrreg.op s)

end Sys2Proof.Machine
end

