-- ==== Sys2Proof/Machine/Table.lean ====
section
/-! DEFINITION. `TBL_READ`, and the Table Generator's output as a whole (`40_table_generator.md`): the image of the table
ROM built by the generator's own recurrences. -/

namespace Sys2Proof.Machine

/-- `TBL_READ idx` (rule R120). -/
def execTblRead (idx : U12) (s : State) : Host.Outcome State Fault Refusal :=
  if h : idx.toNat < 2304 then .next (emit (.rsp (memRead s.params.w ⟨idx.toNat, h⟩)) s)
  else .next (raise .tableIndexRange Mnemonic.tblRead.op s)

/-- The base table (rule R110). -/
def baseTable : List U32 := (List.range 256).map (fun i => updateByte 0#32 (BitVec.ofNat 8 i))

/-- One generator pass over a table: `update_byte(_, 0)` of every entry (rules R111, R113). -/
def advanceTable (t : List U32) : List U32 := t.map (fun x => updateByte x 0#8)

/-- `k` generator passes. -/
def advanceTableBy : Nat → List U32 → List U32
  | 0, t => t
  | k + 1, t => advanceTableBy k (advanceTable t)

/-- `n` consecutive slice groups, the first being `t` and each the previous one advanced (rules R111, R112). -/
def groupsFrom : Nat → List U32 → List U32
  | 0, _ => []
  | n + 1, t => t ++ groupsFrom n (advanceTable t)

/-- The rolling table: the base table advanced `W - 1` times (rule R113). -/
def rollTable (w : Nat) : List U32 := advanceTableBy (w - 1) baseTable

/-- The ROM image of an instance, word 0 first: eight slice groups, then the rolling table (rules R36, R117, R270). -/
def romImage (w : Nat) : List U32 := groupsFrom 8 baseTable ++ rollTable w

end Sys2Proof.Machine
end

