-- ==== Sys2Proof/Machine/Dispatch.lean ====
section
/-! DEFINITION. One arm per constructor of `Instr`, in the order of the opcode table. -/

namespace Sys2Proof.Machine

/-- The effect of one command (`30_encoding.md` rule R77, column semantics). -/
def exec (i : Instr) (s : State) : Host.Outcome State Fault Refusal :=
  match i with
  | .nop => Sys2Proof.Machine.execNop s
  | .rdreg reg => Sys2Proof.Machine.execRdreg reg s
  | .wrreg reg val => Sys2Proof.Machine.execWrreg reg val s
  | .tblRead idx => Sys2Proof.Machine.execTblRead idx s
  | .crcByte b0 => Sys2Proof.Machine.execCrcByte b0 s
  | .crcSlice4 b0 b1 b2 b3 => Sys2Proof.Machine.execCrcSlice4 b0 b1 b2 b3 s
  | .crcSlice8 b0 b1 b2 b3 b4 b5 b6 b7 => Sys2Proof.Machine.execCrcSlice8 b0 b1 b2 b3 b4 b5 b6 b7 s
  | .rollStep inb outb => Sys2Proof.Machine.execRollStep inb outb s
  | .scanByte b0 => Sys2Proof.Machine.execScanByte b0 s
  | .scanEnd => Sys2Proof.Machine.execScanEnd s

end Sys2Proof.Machine
end

