-- ==== Sys2Proof/Machine/Issue.lean ====
section
/-! DEFINITION. What an accepted command word does: decode it, then execute the command or take `IllegalCommand`; and a
sequence of words, each to completion before the next (`10_state.md` rule R21, `70_reset_and_hazards.md` rule R271). -/

namespace Sys2Proof.Machine

/-- Run one command word: decode first (rule R239), `IllegalCommand` with the word's `OP` byte where decode refuses
(rules R78, R232). -/
def issue (c : U72) (s : State) : Host.Outcome State Fault Refusal :=
  match decode s.params.sliceMax c with
  | .ok i => exec i s
  | .error _ => .next (raise .illegalCommand (opOf c) s)

/-- Run command words one after another (rules R19, R21, R59). -/
def issueAll : List U72 → State → Host.Outcome State Fault Refusal
  | [], s => .next s
  | c :: cs, s =>
    match issue c s with
    | .next t => issueAll cs t
    | .fault r => .fault r
    | .refused r => .refused r

/-- Put a command word in front of the waiting ones, so that it is the next word accepted. -/
def State.pushCmd (s : State) (c : U72) : State := s.withCmds (c :: s.cmds)

end Sys2Proof.Machine
end

