-- ==== Sys2Proof/Machine/Step.lean ====
section
/-! DEFINITION. One step of the machine: accept the next command word and run it; with no word waiting the engine holds
its state (`10_state.md` rule R21, `60_exceptions.md` rule R248, `70_reset_and_hazards.md` rules R260, R273). -/

namespace Sys2Proof.Machine

/-- One step. The engine never halts (rule R19): with an empty command port it waits, its state unchanged. DESIGN CHOICE
(log entry 5, unsafe for claims about time): a waiting word is accepted at once and runs to completion. -/
def step (s : State) : Host.Outcome State Fault Refusal :=
  match accept s with
  | none => .next s
  | some (c, t) => issue c t

/-- `s` with a command word of the opcode table's numbering placed where `step` accepts its next word: at the front of
the command port (log entry 3). -/
def State.withFetchWord (s : State) (nbits w : Nat) : State := s.pushCmd (tableWord nbits w)

end Sys2Proof.Machine
end

