-- ==== Sys2Proof/Machine/Pseudo.lean ====
section
/-! DEFINITION. The pseudo-commands (`30_encoding.md` rules R83 to R88; `41_crc_batched.md` rule R140): the command
sequences the host issues for them (DEDUCED, log entry 16, safe). -/

namespace Sys2Proof.Machine

/-- `CRC_INIT val` (rule R83). -/
def crcInit (val : U32) : Instr := .wrreg RegName.rem.number val

/-- `CRC_GET` (rule R84). -/
def crcGet : Instr := .rdreg RegName.rem.number

/-- Consecutive groups of 8 bytes as `CRC_SLICE8`, the rest as `CRC_BYTE` (rules R85, R140). -/
def sliceBy8 : List U8 → List Instr
  | b0 :: b1 :: b2 :: b3 :: b4 :: b5 :: b6 :: b7 :: rest => .crcSlice8 b0 b1 b2 b3 b4 b5 b6 b7 :: sliceBy8 rest
  | short => short.map .crcByte

/-- Consecutive groups of 4 bytes as `CRC_SLICE4`, the rest as `CRC_BYTE` (rules R85, R140). -/
def sliceBy4 : List U8 → List Instr
  | b0 :: b1 :: b2 :: b3 :: rest => .crcSlice4 b0 b1 b2 b3 :: sliceBy4 rest
  | short => short.map .crcByte

/-- The data commands of strategy `N` (rules R85, R140, R141). -/
def dataCommands : SliceMax → List U8 → List Instr
  | .one, data => data.map .crcByte
  | .four, data => sliceBy4 data
  | .eight, data => sliceBy8 data

/-- `CRC32.N init, data` (rules R85, R140). -/
def crc32Commands (n : SliceMax) (init : U32) (data : List U8) : List Instr :=
  crcInit init :: dataCommands n data ++ [crcGet]

/-- `CRC32_STD.N data` (rule R86); the host complements the value it gets back (`hostComplement`). -/
def crc32StdCommands (n : SliceMax) (data : List U8) : List Instr := crc32Commands n 0xFFFFFFFF#32 data

/-- The host's complement of a value read back (rules R86, R143). -/
def hostComplement (v : U32) : U32 := v ^^^ 0xFFFFFFFF#32

/-- `SCAN data` (rule R87). -/
def scanCommands (data : List U8) : List Instr := data.map .scanByte ++ [.scanEnd]

/-- `WINDOW_CRC data` (rule R88). -/
def windowCrcCommands (data : List U8) : List Instr := crcInit 0#32 :: data.map .crcByte

/-- The command words of a command sequence. -/
def wordsOf (is : List Instr) : List U72 := is.map encode

end Sys2Proof.Machine
end

