-- ==== Sys2Proof/Machine/Assembler.lean ====
section
/-! DEFINITION. The assembler syntax (`30_encoding.md` rule R82) and the pseudo-commands written in it (rules R83 to
R88): a line of text to commands, and a command back to text. Outside the engine; no step uses it. -/

namespace Sys2Proof.Machine

/-- The pieces of a line. -/
inductive Token
  /-- A mnemonic, a register name or a number. -/
  | word (cs : List Char)
  /-- A one-character ASCII literal in single quotes. -/
  | quoted (c : Char)
  | comma
  deriving DecidableEq, Repr

/-- The word gathered so far, as a token list. -/
def wordToken (acc : List Char) : List Token := if acc.isEmpty then [] else [.word acc]

/-- Split a line into tokens; a `;` outside a literal starts a comment (rule R82). DESIGN CHOICE (log
entry 15): spaces and tabs separate, `_` and `.` may stand in a word, other characters outside a literal or a comment do
not assemble. -/
def tokens (acc : List Char) : List Char → Option (List Token)
  | '\'' :: c :: '\'' :: rest => if acc.isEmpty then (tokens [] rest).map (fun ts => .quoted c :: ts) else none
  | [] => some (wordToken acc)
  | c :: rest =>
    if c = ';' then some (wordToken acc)
    else if c = ',' then (tokens [] rest).map (fun ts => wordToken acc ++ .comma :: ts)
    else if c = ' ' ∨ c = '\t' then (tokens [] rest).map (fun ts => wordToken acc ++ ts)
    else if c.isAlphanum ∨ c = '_' ∨ c = '.' then tokens (acc ++ [c]) rest
    else none

/-- Operands separated by commas. -/
def operandsOf : List Token → Option (List Token)
  | [] => some []
  | [.comma] => none
  | [t] => some [t]
  | .comma :: _ => none
  | t :: .comma :: rest =>
    match operandsOf rest with
    | some (u :: us) => some (t :: u :: us)
    | _ => none
  | _ => none

/-- The value of a digit, 0 to 15. -/
def digitValue (c : Char) : Option Nat :=
  let n := c.toNat
  if 48 ≤ n ∧ n ≤ 57 then some (n - 48)
  else if 65 ≤ n ∧ n ≤ 70 then some (n - 55)
  else if 97 ≤ n ∧ n ≤ 102 then some (n - 87)
  else none

/-- Digits of a base below 17, most significant first, onto an accumulator. -/
def digitsValue (base acc : Nat) : List Char → Option Nat
  | [] => some acc
  | c :: rest =>
    match digitValue c with
    | some d => if d < base then digitsValue base (acc * base + d) rest else none
    | none => none

/-- A number: decimal, or hexadecimal after `0x` (rule R82). DESIGN CHOICE (log entry 15, unsafe only for claims about such
text): rule R82 does not say whether the separator `_` of rule R10's literals may stand in a number of a line; here it may
not, so a line with `0x1234_5678` does not assemble. Leading zeros may stand. -/
def numberOf : List Char → Option Nat
  | '0' :: 'x' :: c :: rest => digitsValue 16 0 (c :: rest)
  | c :: rest => digitsValue 10 0 (c :: rest)
  | [] => none

/-- An unsigned operand of `n` bits. DESIGN CHOICE (log entry 15): a number that does not fit does not assemble. -/
def fieldOf (n : Nat) : Token → Option (BitVec n)
  | .word cs =>
    match numberOf cs with
    | some v => if v < 2 ^ n then some (BitVec.ofNat n v) else none
    | none => none
  | .quoted _ => none
  | .comma => none

/-- A byte operand: a number or a one-character ASCII literal (rule R82). -/
def byteOperand : Token → Option U8
  | .quoted c => if c.toNat < 128 then some (BitVec.ofNat 8 c.toNat) else none
  | t => fieldOf 8 t

/-- A register operand: a name, or `x` and a number (rule R82). DESIGN CHOICE (log entry 15): `x4` to `x255` are
accepted too, as the spec's vectors Y8, Y10 and E11 write them, and leading zeros may stand. -/
def registerOperand : Token → Option U8
  | .word cs =>
    if cs = "REM".toList then some RegName.rem.number
    else if cs = "SCAN_SUM".toList then some RegName.scanSum.number
    else if cs = "SCAN_POS".toList then some RegName.scanPos.number
    else if cs = "STATUS".toList then some RegName.status.number
    else
      match cs with
      | 'x' :: d :: ds =>
        match digitsValue 10 0 (d :: ds) with
        | some v => if v < 256 then some (BitVec.ofNat 8 v) else none
        | none => none
      | _ => none
  | .quoted _ => none
  | .comma => none

/-- Every operand as a byte. -/
def bytesOf : List Token → Option (List U8)
  | [] => some []
  | t :: ts =>
    match byteOperand t, bytesOf ts with
    | some b, some bs => some (b :: bs)
    | _, _ => none

/-- The commands a mnemonic and its operands stand for on an instance (rules R82 to R88). DESIGN CHOICE (log entry 15): a
byte-string operand of a pseudo-command is written as its bytes separated by commas; a pseudo-command whose rule's
condition does not hold does not assemble, and a slice command assembles on every instance. -/
def commandsOf (p : Params) (m : List Char) (ops : List Token) : Option (List Instr) :=
  let batched (n : SliceMax) : Option (List Instr) :=
    match ops with
    | t :: ts =>
      match fieldOf 32 t, bytesOf ts with
      | some v, some bs => if n.width ≤ p.sliceMax.width then some (crc32Commands n v bs) else none
      | _, _ => none
    | [] => none
  let standard (n : SliceMax) : Option (List Instr) :=
    match bytesOf ops with
    | some bs => if n.width ≤ p.sliceMax.width then some (crc32StdCommands n bs) else none
    | none => none
  if m = "NOP".toList then (if ops.isEmpty then some [.nop] else none)
  else if m = "RDREG".toList then
    match ops with
    | [t] => (registerOperand t).map (fun r => [.rdreg r])
    | _ => none
  else if m = "WRREG".toList then
    match ops with
    | [t, u] =>
      match registerOperand t, fieldOf 32 u with
      | some r, some v => some [.wrreg r v]
      | _, _ => none
    | _ => none
  else if m = "TBL_READ".toList then
    match ops with
    | [t] => (fieldOf 12 t).map (fun i => [.tblRead i])
    | _ => none
  else if m = "CRC_BYTE".toList then
    match bytesOf ops with
    | some [b0] => some [.crcByte b0]
    | _ => none
  else if m = "CRC_SLICE4".toList then
    match bytesOf ops with
    | some [b0, b1, b2, b3] => some [.crcSlice4 b0 b1 b2 b3]
    | _ => none
  else if m = "CRC_SLICE8".toList then
    match bytesOf ops with
    | some [b0, b1, b2, b3, b4, b5, b6, b7] => some [.crcSlice8 b0 b1 b2 b3 b4 b5 b6 b7]
    | _ => none
  else if m = "ROLL_STEP".toList then
    match bytesOf ops with
    | some [inb, outb] => some [.rollStep inb outb]
    | _ => none
  else if m = "SCAN_BYTE".toList then
    match bytesOf ops with
    | some [b0] => some [.scanByte b0]
    | _ => none
  else if m = "SCAN_END".toList then (if ops.isEmpty then some [.scanEnd] else none)
  else if m = "CRC_INIT".toList then
    match ops with
    | [t] => (fieldOf 32 t).map (fun v => [crcInit v])
    | _ => none
  else if m = "CRC_GET".toList then (if ops.isEmpty then some [crcGet] else none)
  else if m = "CRC32.1".toList then batched .one
  else if m = "CRC32.4".toList then batched .four
  else if m = "CRC32.8".toList then batched .eight
  else if m = "CRC32_STD.1".toList then standard .one
  else if m = "CRC32_STD.4".toList then standard .four
  else if m = "CRC32_STD.8".toList then standard .eight
  else if m = "SCAN".toList then (bytesOf ops).map scanCommands
  else if m = "WINDOW_CRC".toList then
    match bytesOf ops with
    | some bs => if bs.length = p.w then some (windowCrcCommands bs) else none
    | none => none
  else none

/-- Assemble one line: no command for a blank or comment line, one for a command, several for a pseudo-command
(rule R82); `none` for a line that is not in the syntax. -/
def assembleLine (p : Params) (line : List Char) : Option (List Instr) :=
  match tokens [] line with
  | some [] => some []
  | some (.word m :: ts) =>
    match operandsOf ts with
    | some ops => commandsOf p m ops
    | none => none
  | _ => none

/-- A hexadecimal digit, upper case. -/
def hexDigit (n : Nat) : Char := if n < 10 then Char.ofNat (48 + n) else Char.ofNat (55 + n)

/-- The `k` low hexadecimal digits of a number, most significant first. -/
def hexDigits : Nat → Nat → List Char
  | 0, _ => []
  | k + 1, n => hexDigits k (n / 16) ++ [hexDigit (n % 16)]

/-- A byte as text. -/
def byteText (b : U8) : List Char := '0' :: 'x' :: hexDigits 2 b.toNat

/-- A register operand as text (rule R82). -/
def registerText (reg : U8) : List Char :=
  match RegName.ofNumber reg with
  | some .rem => "REM".toList
  | some .scanSum => "SCAN_SUM".toList
  | some .scanPos => "SCAN_POS".toList
  | some .status => "STATUS".toList
  | none => 'x' :: (Nat.toDigits 10 reg.toNat)

/-- Byte operands, first byte first (rule R82). -/
def bytesText : List U8 → List Char
  | [] => []
  | [b] => byteText b
  | b :: bs => byteText b ++ ", ".toList ++ bytesText bs

/-- A command as a line of the assembler syntax (rule R82). -/
def lineOf : Instr → List Char
  | .nop => "NOP".toList
  | .rdreg reg => "RDREG ".toList ++ registerText reg
  | .wrreg reg val => "WRREG ".toList ++ registerText reg ++ ", 0x".toList ++ hexDigits 8 val.toNat
  | .tblRead idx => "TBL_READ 0x".toList ++ hexDigits 3 idx.toNat
  | .crcByte b0 => "CRC_BYTE ".toList ++ byteText b0
  | .crcSlice4 b0 b1 b2 b3 => "CRC_SLICE4 ".toList ++ bytesText [b0, b1, b2, b3]
  | .crcSlice8 b0 b1 b2 b3 b4 b5 b6 b7 => "CRC_SLICE8 ".toList ++ bytesText [b0, b1, b2, b3, b4, b5, b6, b7]
  | .rollStep inb outb => "ROLL_STEP ".toList ++ bytesText [inb, outb]
  | .scanByte b0 => "SCAN_BYTE ".toList ++ byteText b0
  | .scanEnd => "SCAN_END".toList

/-- A command word written in hexadecimal as 18 digits with `_` after the first two; rule R82 makes the `_` optional, and
writing it is the model's choice (DESIGN CHOICE, log entry 15). -/
def wordText (c : U72) : List Char :=
  "0x".toList ++ hexDigits 2 (opOf c).toNat ++ ['_'] ++ hexDigits 16 (argOf c).toNat

end Sys2Proof.Machine
end

