-- ==== Sys2Proof/Machine/Ports.lean ====
section
/-! DEFINITION. What the outside world can do to the engine (`00_scope.md` rule R17, `70_reset_and_hazards.md` rules R260,
R273): offer a command word, take an output record, apply the reset input. -/

namespace Sys2Proof.Machine

/-- The host offers a command word at the command port; the port keeps the order (rule R273). -/
def State.offer (s : State) (c : U72) : State := s.withCmds (s.cmds ++ [c])

/-- The record the output port holds out to the host, if one is left to take (rules R272, R273). -/
def State.pendingRecord (s : State) : Option Record := s.out[s.taken]?

/-- The host takes the next output record, in `OUT` order; `OUT` itself keeps every record since reset (rules R35,
R272). With none left to take, nothing happens. -/
def State.take (s : State) : State :=
  match s.pendingRecord with
  | some _ => s.withTaken (s.taken + 1)
  | none => s

/-- The records the host has taken so far. -/
def State.received (s : State) : List Record := s.out.take s.taken

/-- The reset input: whatever the state, the reset state of the same instance; command words and records not yet
transferred are discarded (rule R260; log entry 13). -/
def State.applyReset (s : State) : State := State.resetOf s.params

/-- An act of the host (rule R17, and the reset input of rule R260). -/
inductive HostAct
  | offer (c : U72)
  | take
  | reset
  deriving DecidableEq, Repr

/-- The state after an act of the host. -/
def hostAct : HostAct → State → State
  | .offer c, s => s.offer c
  | .take, s => s.take
  | .reset, s => s.applyReset

end Sys2Proof.Machine
end

