-- ==== Sys2Proof/Safety.lean ====
section
/-! DEFINITION. What claims are stated in: the invariant of every run (`10_state.md` rule R42, `43_match_scan.md` rule
R190), the order of the checks a command passes (`60_exceptions.md` rule R239), and runs that never stop. -/

namespace Sys2Proof.Machine

/-! ### The scan invariant -/

/-- The number of windows completed when `n` bytes have been given, `NWIN` (rule R33). -/
def windowCount (w n : Nat) : Nat := if w ≤ n then n - w + 1 else 0

/-- The checksum of the window at offset `a` of a stream, `crc(0, s[a .. a+W))` (rule R181). -/
def windowSum (w : Nat) (stream : List U8) (a : Nat) : U32 := crc 0#32 ((stream.drop a).take w)

/-- The scan state of `s` is the one the bytes `stream`, given since reset or the last `SCAN_END`, lead to (rules R33,
R42 (c), R190). -/
structure ScanRel (stream : List U8) (s : State) : Prop where
  /-- `SCAN_POS` counts the bytes (rule R25). -/
  pos : s.scanPos.toNat = stream.length
  /-- `SCAN_SUM = crc(0, s[max(0, n-W) .. n))`. -/
  sum : s.scanSum = crc 0#32 (stream.drop (stream.length - s.params.w))
  /-- `WBUF` has `W` bytes (rule R32). -/
  bufLength : s.wbuf.length = s.params.w
  /-- `WBUF[j mod W] = s[j]` for `max(0, n-W) <= j < n`. -/
  buf : ∀ j, stream.length - s.params.w ≤ j → j < stream.length → s.wbuf[slotOf s.params.w j]? = stream[j]?
  /-- Slots no byte of the stream has reached still hold 0x00 (rules R195, R265). -/
  bufClear : ∀ k, stream.length ≤ k → k < s.params.w → s.wbuf[k]? = some 0#8
  /-- `HIST` is in canonical form. -/
  histWf : s.hist.Wf
  /-- `HIST` is defined exactly on `max(0, NWIN - HIST_DEPTH) <= a < NWIN`, with `HIST[a]` the checksum of the window at
  `a` (rule R33). -/
  hist : ∀ a, Hist.lookup s.hist a =
    if windowCount s.params.w stream.length - s.params.histDepth ≤ a ∧ a < windowCount s.params.w stream.length then
      some (windowSum s.params.w stream a)
    else none

/-- Some byte sequence explains the scan state. -/
def State.ScanInv (s : State) : Prop := ∃ stream, ScanRel stream s

/-! ### The fault and output invariants -/

/-- The cause of the first `FAULT` record of an output stream. -/
def firstFault : List Record → Option Cause
  | [] => none
  | .fault c _ :: _ => some c
  | .rsp _ :: rest => firstFault rest
  | .matchPair _ _ :: rest => firstFault rest

/-- `STATUS.ERR` says whether a fault has been raised since reset, `STATUS.CAUSE` is the code of the first one, 0 if
there is none (rules R26, R28, R29, R42 (b)). -/
def State.FaultInv (s : State) : Prop :=
  s.err = (firstFault s.out).isSome ∧ s.cause = ((firstFault s.out).map Cause.code).getD 0#4

/-- Every `MATCH` record has `offset_a < offset_b` (rule R73). -/
def State.MatchInv (s : State) : Prop := ∀ a b, Record.matchPair a b ∈ s.out → a < b

/-- The host has taken no more records than there are (rule R273). -/
def State.PortInv (s : State) : Prop := s.taken ≤ s.out.length

/-- The invariant of every run: it holds after reset and every step and every act of the host keeps it. -/
structure State.Inv (s : State) : Prop where
  scan : s.ScanInv
  fault : s.FaultInv
  matched : s.MatchInv
  port : s.PortInv

/-! ### The checks of a command, in order -/

/-- The first check of rule R239 that a command word fails on a state, read from the bits of the word: decode; then the
register number; then the access right, the table index or the stream position. -/
def FirstFailedCheck (s : State) (c : U72) : Option Cause → Prop
  | some .illegalCommand => ∀ m, ¬ Mnemonic.Selects s.params.sliceMax m c
  | some .badRegister =>
    (Mnemonic.Selects s.params.sliceMax .rdreg c ∨ Mnemonic.Selects s.params.sliceMax .wrreg c) ∧
      3 < ((argOf c).extractLsb' 32 8).toNat
  | some .readOnlyRegister =>
    Mnemonic.Selects s.params.sliceMax .wrreg c ∧ 1 ≤ ((argOf c).extractLsb' 32 8).toNat ∧
      ((argOf c).extractLsb' 32 8).toNat ≤ 3
  | some .tableIndexRange => Mnemonic.Selects s.params.sliceMax .tblRead c ∧ 2304 ≤ ((argOf c).extractLsb' 0 12).toNat
  | some .positionOverflow => Mnemonic.Selects s.params.sliceMax .scanByte c ∧ s.scanPos = 0xFFFFFFFF#32
  | none =>
    (∃ m, Mnemonic.Selects s.params.sliceMax m c) ∧
    ¬ ((Mnemonic.Selects s.params.sliceMax .rdreg c ∨ Mnemonic.Selects s.params.sliceMax .wrreg c) ∧
      3 < ((argOf c).extractLsb' 32 8).toNat) ∧
    ¬ (Mnemonic.Selects s.params.sliceMax .wrreg c ∧ 1 ≤ ((argOf c).extractLsb' 32 8).toNat) ∧
    ¬ (Mnemonic.Selects s.params.sliceMax .tblRead c ∧ 2304 ≤ ((argOf c).extractLsb' 0 12).toNat) ∧
    ¬ (Mnemonic.Selects s.params.sliceMax .scanByte c ∧ s.scanPos = 0xFFFFFFFF#32)

/-- A record that is no `FAULT`. -/
def Record.isFault : Record → Bool
  | .fault _ _ => true
  | .rsp _ => false
  | .matchPair _ _ => false

/-! ### Data of the batched commands -/

/-- The data bytes of a batched command in stream order; `none` for every other command (rules R50, R130). -/
def batchedData : Instr → Option (List U8)
  | .crcByte b0 => some [b0]
  | .crcSlice4 b0 b1 b2 b3 => some [b0, b1, b2, b3]
  | .crcSlice8 b0 b1 b2 b3 b4 b5 b6 b7 => some [b0, b1, b2, b3, b4, b5, b6, b7]
  | .nop => none
  | .rdreg _ => none
  | .wrreg _ _ => none
  | .tblRead _ => none
  | .rollStep _ _ => none
  | .scanByte _ => none
  | .scanEnd => none

/-- A sequence of batched commands that exist on an instance and together carry the bytes `data` in stream order. -/
inductive Splits (sm : SliceMax) : List U8 → List Instr → Prop
  | nil : Splits sm [] []
  | cons (i : Instr) (bytes rest : List U8) (is : List Instr) :
      i.wellFormed sm = true → batchedData i = some bytes → Splits sm rest is → Splits sm (bytes ++ rest) (i :: is)

/-- A run is safe when it never stops: a step of the engine always answers a next state (rule R19). -/
def RunsOn (s : State) : Prop := ∃ t, step s = .next t

end Sys2Proof.Machine
end

