-- ==== Sys2Proof/Certificates/Slice0/Obligations.lean ====
section
/-! DEFINITION. The statements for the provers. Each docstring names the rule of `spec/` the statement formalises; a
statement marked "derived" rests on a passage the spec itself marks as an inference, or takes part of a rule. -/

open Sys2Proof Sys2Proof.Machine

/-! ### Arithmetic and tables -/

/-- Rule R100: the bit step, in the form the rule quotes, and the rule's examples. -/
def Obligations.BitStepShiftsAndFeedsBack : Prop :=
  (∀ (r : U32) (bit : Bool),
    updateBit r bit =
      (r >>> 1) ^^^ (if (r ^^^ (BitVec.ofBool bit).setWidth 32) &&& 1#32 ≠ 0#32 then 0xEDB88320#32 else 0#32)) ∧
  updateBit 0#32 false = 0x00000000#32 ∧ updateBit 0#32 true = 0xEDB88320#32 ∧
  updateBit 1#32 false = 0xEDB88320#32 ∧ updateBit 1#32 true = 0x00000000#32 ∧
  updateBit 2#32 false = 0x00000001#32 ∧ updateBit 0x80000000#32 false = 0x40000000#32 ∧
  updateBit 0xFFFFFFFF#32 false = 0x92477CDF#32 ∧ updateBit 0xFFFFFFFF#32 true = 0x7FFFFFFF#32

/-- Rule R102: the byte step is eight bit steps, bit 0 of the byte first; its worked example step by step and its other
values. -/
def Obligations.ByteStepTakesBitsLowestFirst : Prop :=
  (∀ (r : U32) (b : U8), updateByte r b = (List.range 8).foldl (fun acc j => updateBit acc (b.getLsbD j)) r) ∧
  (List.range 8).map (fun k => (List.range (k + 1)).foldl (fun acc j => updateBit acc ((0x01#8).getLsbD j)) 0#32) =
    [0xEDB88320#32, 0x76DC4190#32, 0x3B6E20C8#32, 0x1DB71064#32, 0x0EDB8832#32, 0x076DC419#32, 0xEE0E612C#32,
      0x77073096#32] ∧
  updateByte 0#32 0x01#8 = 0x77073096#32 ∧ updateByte 0#32 0x00#8 = 0x00000000#32 ∧
  updateByte 0#32 0x02#8 = 0xEE0E612C#32 ∧ updateByte 0#32 0x80#8 = 0xEDB88320#32 ∧
  updateByte 0#32 0xFF#8 = 0x2D02EF8D#32 ∧ updateByte 0xFFFFFFFF#32 0x00#8 = 0x2DFD1072#32 ∧
  updateByte 0xFFFFFFFF#32 0xFF#8 = 0x00FFFFFF#32 ∧ updateByte 0x00000031#32 0x31#8 = 0x00000000#32 ∧
  updateByte 0x00000100#32 0x00#8 = 0x00000001#32 ∧ updateByte 0x12345678#32 0x9A#8 = 0x4E16B702#32

/-- Rule R103: the contract of the byte step. -/
def Obligations.ByteStepIsLinearOverXor : Prop :=
  updateByte 0#32 0#8 = 0#32 ∧
  ∀ a b : U32, updateByte (a ^^^ b) 0#8 = updateByte a 0#8 ^^^ updateByte b 0#8

/-- Derived: rules R104 and R105, which the spec marks as derived: the byte folds into the remainder, the low byte splits
off, and the table-driven single-byte step on any instance. -/
def Obligations.ByteStepFoldsAndSplitsThroughTheBaseTable : Prop :=
  (∀ (r : U32) (b : U8), updateByte r b = updateByte (r ^^^ b.setWidth 32) 0#8) ∧
  (∀ x : U32, updateByte x 0#8 = (x >>> 8) ^^^ updateByte ((x.extractLsb' 0 8).setWidth 32) 0#8) ∧
  ∀ (w : Nat) (r : U32) (b : U8),
    updateByte r b = (r >>> 8) ^^^ groupRead w 0 ((r ^^^ b.setWidth 32).extractLsb' 0 8)

/-- Derived: rule R106 (marked derived in the spec): linearity of whole sequences and its two special cases. -/
def Obligations.CrcIsLinearOverSequences : Prop :=
  (∀ (r1 r2 : U32) (d1 d2 : List U8), d1.length = d2.length →
    crc (r1 ^^^ r2) (List.zipWith (fun x y => x ^^^ y) d1 d2) = crc r1 d1 ^^^ crc r2 d2) ∧
  (∀ (r : U32) (d : List U8), crc r d = crc r (List.replicate d.length 0#8) ^^^ crc 0#32 d) ∧
  ∀ (n : Nat) (d : List U8), crc 0#32 (List.replicate n 0#8 ++ d) = crc 0#32 d

/-- Derived: rules R107 and R148 (marked derived in the spec): `Z^m` is `m` zero bytes, and the combination law. -/
def Obligations.CrcOfConcatenationCombines : Prop :=
  (∀ (m : Nat) (x : U32), zeroAdvance m x = crc x (List.replicate m 0#8)) ∧
  ∀ (r : U32) (a b : List U8),
    crc r (a ++ b) = crc (crc r a) b ∧ crc r (a ++ b) = zeroAdvance b.length (crc r a) ^^^ crc 0#32 b

/-- Derived: the table space a lookup reads is, word for word, the image the generator's recurrences build (rules R56,
R110 to R113, R117), for every `W >= 1`. -/
def Obligations.TableSpaceIsTheGeneratorsImage : Prop :=
  ∀ w : Nat, 1 ≤ w →
    (romImage w).length = 2304 ∧ ∀ idx : Fin 2304, (romImage w)[idx.val]? = some (memRead w idx)

/-- Rule R112: the flat layout. Word `256*k + i` is `G[k][i]`, the CRC of byte `i` then `k` zero bytes, and words 256 to
2047 follow the recurrence. -/
def Obligations.FlatSliceTableFollowsItsRecurrence : Prop :=
  (∀ (w : Nat) (k : Fin 8) (i : U8) (h : 256 * k.val + i.toNat < 2304),
    memRead w ⟨256 * k.val + i.toNat, h⟩ = groupRead w k i ∧
    groupRead w k i = crc 0#32 (i :: List.replicate k.val 0#8)) ∧
  ∀ (w j : Nat) (h : j < 2304) (h' : j - 256 < 2304), 256 ≤ j → j ≤ 2047 →
    memRead w ⟨j, h⟩ = updateByte (memRead w ⟨j - 256, h'⟩) 0#8

/-- Rule R113: the rolling table, `W - 1` zero bytes and not `W`, and the rule's values for `W = 16`. -/
def Obligations.RollingTableAppendsOneZeroByteLessThanTheWindow : Prop :=
  (∀ (w : Nat) (i : U8) (h : 2048 + i.toNat < 2304), 1 ≤ w →
    memRead w ⟨2048 + i.toNat, h⟩ = rollRead w i ∧
    rollRead w i = zeroAdvance (w - 1) (groupRead w 0 i) ∧
    rollRead w i = crc 0#32 (i :: List.replicate (w - 1) 0#8)) ∧
  rollRead 16 0x00#8 = 0x00000000#32 ∧ rollRead 16 0x01#8 = 0xAE689191#32 ∧ rollRead 16 0x02#8 = 0x87A02563#32 ∧
  rollRead 16 0x41#8 = 0x8016676B#32 ∧ rollRead 16 0x42#8 = 0xA9DED399#32 ∧ rollRead 16 0x80#8 = 0x5CFDEDF4#32 ∧
  rollRead 16 0xFF#8 = 0x0D7139D7#32

/-- Derived: rule R114 (marked derived in the spec): entry 0 is 0, each table is linear in its index, and for
`1 <= W <= 8` the rolling table is group `W - 1`. -/
def Obligations.TablesAreLinearInTheirIndex : Prop :=
  ∀ w : Nat, 1 ≤ w →
    (∀ k : Fin 8, groupRead w k 0#8 = 0#32) ∧ rollRead w 0#8 = 0#32 ∧
    (∀ (k : Fin 8) (i j : U8), groupRead w k (i ^^^ j) = groupRead w k i ^^^ groupRead w k j) ∧
    (∀ i j : U8, rollRead w (i ^^^ j) = rollRead w i ^^^ rollRead w j) ∧
    ∀ (k : Fin 8) (i : U8), k.val = w - 1 → rollRead w i = groupRead w k i

/-! ### Encoding -/

/-- Derived (rules R71, R77, R82): no bit of an encoding is dropped. On every instance, decoding the word of a command
that exists there gives the command back, with every operand at every value. -/
def Obligations.DecodeOfEncodeIsTheCommand : Prop :=
  ∀ (sm : SliceMax) (i : Instr), i.wellFormed sm = true → decode sm (encode i) = .ok i

/-- Derived (rules R71, R79, R82): a word that decodes is the word of the command it decodes to, and that command exists
on the instance; so no word has a second spelling. -/
def Obligations.EncodeOfDecodeIsTheWord : Prop :=
  ∀ (sm : SliceMax) (c : U72) (i : Instr), decode sm c = .ok i → encode i = c ∧ i.wellFormed sm = true

/-- Rule R80: every one of the 2^72 words matches exactly one row and decodes to a command of it, or matches none and
raises `IllegalCommand`; and no word but that of `NOP` does nothing in every state of an instance. -/
def Obligations.EveryWordMatchesOneRowOrIsIllegal : Prop :=
  (∀ (s : State) (c : U72),
    (∃ i, decode s.params.sliceMax c = .ok i ∧
      ∀ m, Mnemonic.Selects s.params.sliceMax m c ↔ m = i.mnemonic) ∨
    ((∀ m, ¬ Mnemonic.Selects s.params.sliceMax m c) ∧ issue c s = .next (raise .illegalCommand (opOf c) s))) ∧
  ∀ (p : Params) (c : U72), (∀ s : State, s.params = p → issue c s = .next s) → c = encode .nop

/-- Rules R78, R79, R232: what is illegal. A waiting word that matches no row raises `IllegalCommand` with its `OP` byte
and is consumed; 246 `OP` values are unlisted and match no row; the slice commands match none on a narrower instance;
neither does a listed `OP` with a reserved bit set; and the example of rule R232. -/
def Obligations.WordsThatMatchNoRowRaiseIllegalCommand : Prop :=
  (∀ (s : State) (c : U72) (rest : List U72), s.cmds = c :: rest → (∀ m, ¬ Mnemonic.Selects s.params.sliceMax m c) →
    step s = .next (raise .illegalCommand (opOf c) (s.withCmds rest))) ∧
  (∀ (sm : SliceMax) (c : U72), (∀ m : Mnemonic, opOf c ≠ m.op) → ∀ m, ¬ Mnemonic.Selects sm m c) ∧
  ((List.range 256).filter (fun n => (Mnemonic.ofOp (BitVec.ofNat 8 n)).isNone)).length = 246 ∧
  (∀ (sm : SliceMax) (c : U72), opOf c = 0x12#8 → sm.width < 8 → ∀ m, ¬ Mnemonic.Selects sm m c) ∧
  (∀ (sm : SliceMax) (c : U72), opOf c = 0x11#8 → sm.width = 1 → ∀ m, ¬ Mnemonic.Selects sm m c) ∧
  (∀ (sm : SliceMax) (c : U72) (m : Mnemonic), opOf c = m.op → argOf c &&& m.format.reserved ≠ 0#64 →
    ∀ m', ¬ Mnemonic.Selects sm m' c) ∧
  ∀ (s : State) (rest : List U72), s.cmds = 0x100000000000000131#72 :: rest →
    ∃ t, step s = .next t ∧ t.outWords = s.outWords ++ [0xFF0000000000001001#72]

/-- Derived (`95_test_vectors.md`, vectors E1 to E8 and E10 to E12, and the words of `NOP` and `SCAN_END`, vectors Y1 and
M15): words written out in the spec decode as the spec says, on an instance with `SLICE_MAX = 8`. -/
def Obligations.WordsOfTheSpecDecodeAsWritten : Prop :=
  decode .eight 0x100000000000000031#72 = .ok (.crcByte 0x31#8) ∧
  decode .eight 0x100000000000000131#72 = .error .reservedBits ∧
  decode .eight 0x110000000034333231#72 = .ok (.crcSlice4 0x31#8 0x32#8 0x33#8 0x34#8) ∧
  decode .eight 0x123837363534333231#72 =
    .ok (.crcSlice8 0x31#8 0x32#8 0x33#8 0x34#8 0x35#8 0x36#8 0x37#8 0x38#8) ∧
  decode .eight 0x12FFFFFFFFFFFFFFFF#72 =
    .ok (.crcSlice8 0xFF#8 0xFF#8 0xFF#8 0xFF#8 0xFF#8 0xFF#8 0xFF#8 0xFF#8) ∧
  decode .eight 0x200000000000004142#72 = .ok (.rollStep 0x42#8 0x41#8) ∧
  decode .eight 0x300000000000000041#72 = .ok (.scanByte 0x41#8) ∧
  decode .eight 0x040000000000000000#72 = .error .unknownOpcode ∧
  decode .eight 0x0200000003DEADBEEF#72 = .ok (.wrreg 3#8 0xDEADBEEF#32) ∧
  decode .eight 0x01000000FF00000000#72 = .ok (.rdreg 255#8) ∧
  decode .eight 0x0300000000000008FF#72 = .ok (.tblRead 2303#12) ∧
  decode .eight 0x000000000000000000#72 = .ok .nop ∧
  decode .eight 0x310000000000000000#72 = .ok .scanEnd

/-- Derived (rules R72, R73): the layout of the three kinds of output record, and that the 72 bits say which record it
is. -/
def Obligations.OutputRecordsReadBackFromTheirWords : Prop :=
  (∀ v : U32, (Record.rsp v).word.extractLsb' 64 8 = 0x01#8 ∧ (Record.rsp v).word.extractLsb' 32 32 = 0#32 ∧
    (Record.rsp v).word.extractLsb' 0 32 = v) ∧
  (∀ a b : U32, (Record.matchPair a b).word.extractLsb' 64 8 = 0x02#8 ∧
    (Record.matchPair a b).word.extractLsb' 0 32 = a ∧ (Record.matchPair a b).word.extractLsb' 32 32 = b) ∧
  (∀ (f : Cause) (op : U8), (Record.fault f op).word.extractLsb' 64 8 = 0xFF#8 ∧
    (Record.fault f op).word.extractLsb' 16 48 = 0#48 ∧ (Record.fault f op).word.extractLsb' 8 8 = op ∧
    (Record.fault f op).word.extractLsb' 0 8 = f.code.setWidth 8) ∧
  (∀ r : Record, Record.ofWord r.word = some r) ∧
  ∀ (o : U72) (r : Record), Record.ofWord o = some r → r.word = o

/-- Derived (rule R82; log entry 15): the line written for a command assembles to that command on every instance. The text
details that rule R82 leaves open are the model's choice (DESIGN CHOICE, log entry 15): registers 4 to 255 are written `x4`
to `x255`, which R82 does not list (it lists `x0` to `x3`), and the spacing and digits of a line are the model's own. -/
def Obligations.AssemblingTheLineOfACommandGivesIt : Prop :=
  ∀ (p : Params) (i : Instr), assembleLine p (lineOf i) = some [i]

/-! ### Steps -/

/-- Derived (rules R21, R81, R248): a step accepts the waiting word and, when it decodes, is the command's effect on the
state with that word consumed; with no word waiting the engine holds its state. -/
def Obligations.StepRunsTheDecodedCommand : Prop :=
  (∀ (s : State) (c : U72) (rest : List U72) (i : Instr), s.cmds = c :: rest → decode s.params.sliceMax c = .ok i →
    step s = exec i (s.withCmds rest)) ∧
  ∀ s : State, s.cmds = [] → step s = .next s

/-- Derived (rules R21, R82; log entry 7): a step on the word of a command is `exec` of that command, for every command,
slice commands the instance lacks included. -/
def Obligations.StepRunsTheCommandOfItsWord : Prop :=
  ∀ (s : State) (i : Instr) (rest : List U72), s.cmds = encode i :: rest → step s = exec i (s.withCmds rest)

/-- Derived (rules R21, R59, R271): waiting words run one at a time in arrival order, each to completion, and what a
word does does not depend on the words behind it. -/
def Obligations.WaitingWordsRunInArrivalOrder : Prop :=
  ∀ (cs rest : List U72) (s : State), s.cmds = cs ++ rest →
    ∃ t, Host.Core.run Sys2Proof.core cs.length s = .next (t.withCmds rest) ∧ issueAll cs (s.withCmds []) = .next t

/-- Derived (rules R19, R80): the engine never halts. -/
def Obligations.EveryStepAnswersANextState : Prop := ∀ s : State, RunsOn s

/-! ### System commands and the table space -/

/-- Rule R210: `NOP` reads and writes nothing; its encoding, a non-zero `ARG` being illegal; the rule's example. -/
def Obligations.NopChangesNothing : Prop :=
  (∀ s : State, exec .nop s = .next s) ∧
  (∀ (s : State) (c : U72), opOf c = 0x00#8 →
    issue c s = if argOf c = 0#64 then exec .nop s else .next (raise .illegalCommand 0x00#8 s)) ∧
  ∀ (s : State) (rest : List U72), s.cmds = 0x000000000000000000#72 :: rest → step s = .next (s.withCmds rest)

/-- Rule R211: `RDREG`. Each register's value, `STATUS` bit by bit; `BadRegister` for the other numbers; the encoding;
the partial checksum in the fill phase; `STATUS` after a fault; the rule's example. -/
def Obligations.RdregEmitsTheRegister : Prop :=
  (∀ s : State,
    exec (.rdreg 0#8) s = .next (s.withOut (s.out ++ [Record.rsp s.rem])) ∧
    exec (.rdreg 1#8) s = .next (s.withOut (s.out ++ [Record.rsp s.scanSum])) ∧
    exec (.rdreg 2#8) s = .next (s.withOut (s.out ++ [Record.rsp s.scanPos])) ∧
    exec (.rdreg 3#8) s = .next (s.withOut (s.out ++
      [Record.rsp (0x000000#24 ++ s.cause ++ 0b00#2 ++ BitVec.ofBool s.err ++
        BitVec.ofBool (decide (s.params.w ≤ s.scanPos.toNat)))]))) ∧
  (∀ (s : State) (reg : U8), 4 ≤ reg.toNat → exec (.rdreg reg) s = .next (raise .badRegister 0x01#8 s)) ∧
  (∀ (s : State) (c : U72), opOf c = 0x01#8 →
    issue c s = if (argOf c).extractLsb' 0 32 = 0#32 ∧ (argOf c).extractLsb' 40 24 = 0#24
      then exec (.rdreg ((argOf c).extractLsb' 32 8)) s else .next (raise .illegalCommand 0x01#8 s)) ∧
  (∀ (stream : List U8) (s : State), ScanRel stream s → stream.length < s.params.w →
    exec (.rdreg 1#8) s = .next (s.withOut (s.out ++ [Record.rsp (crc 0#32 stream)]))) ∧
  (∀ (s : State) (f : Cause) (op : U8),
    (raise f op s).statusWord.getLsbD 1 = true ∧
    (raise f op s).statusWord.extractLsb' 4 4 = (if s.err = true then s.cause else f.code)) ∧
  (∀ (s : State) (op : U8), s.err = false → s.scanPos.toNat < s.params.w →
    (raise .illegalCommand op s).statusWord = 0x00000012#32) ∧
  ∀ (s : State) (rest : List U72), s.cmds = 0x010000000000000000#72 :: rest → s.rem = 0x2DFD2D88#32 →
    ∃ t, step s = .next t ∧ t.outWords = s.outWords ++ [0x01000000002DFD2D88#72]

/-- Rule R212: `WRREG`. Only `REM` is written, with any value; `BadRegister` comes before `ReadOnlyRegister`; the
encoding; the rule's examples. -/
def Obligations.WrregWritesOnlyRem : Prop :=
  (∀ (s : State) (val : U32), exec (.wrreg 0#8 val) s = .next (s.withRem val)) ∧
  (∀ (s : State) (reg : U8) (val : U32), 4 ≤ reg.toNat →
    exec (.wrreg reg val) s = .next (raise .badRegister 0x02#8 s)) ∧
  (∀ (s : State) (reg : U8) (val : U32), 1 ≤ reg.toNat → reg.toNat ≤ 3 →
    exec (.wrreg reg val) s = .next (raise .readOnlyRegister 0x02#8 s)) ∧
  (∀ (s : State) (c : U72), opOf c = 0x02#8 →
    issue c s = if (argOf c).extractLsb' 40 24 = 0#24
      then exec (.wrreg ((argOf c).extractLsb' 32 8) ((argOf c).extractLsb' 0 32)) s
      else .next (raise .illegalCommand 0x02#8 s)) ∧
  (∀ (s : State) (rest : List U72), s.cmds = 0x0200000000FFFFFFFF#72 :: rest →
    ∃ t, step s = .next t ∧ t.rem = 0xFFFFFFFF#32) ∧
  ∀ (s : State) (rest : List U72), s.cmds = 0x020000000200000005#72 :: rest →
    ∃ t, step s = .next t ∧ t.scanPos = s.scanPos ∧ t.out = s.out ++ [Record.fault .readOnlyRegister 0x02#8]

/-- Rule R120: `TBL_READ`. The word of each index in terms of `crc`; `TableIndexRange` from 2304 up; the encoding; the
corner cases and the example of the rule. -/
def Obligations.TblReadEmitsTheTableWord : Prop :=
  (∀ (s : State) (idx : U12), idx.toNat < 2048 →
    exec (.tblRead idx) s = .next (s.withOut (s.out ++
      [Record.rsp (crc 0#32 (idx.extractLsb' 0 8 :: List.replicate (idx.toNat / 256) 0#8))]))) ∧
  (∀ (s : State) (idx : U12), 2048 ≤ idx.toNat → idx.toNat < 2304 →
    exec (.tblRead idx) s = .next (s.withOut (s.out ++
      [Record.rsp (crc 0#32 (idx.extractLsb' 0 8 :: List.replicate (s.params.w - 1) 0#8))]))) ∧
  (∀ (s : State) (idx : U12), 2304 ≤ idx.toNat →
    exec (.tblRead idx) s = .next (raise .tableIndexRange 0x03#8 s)) ∧
  (∀ (s : State) (c : U72), opOf c = 0x03#8 →
    issue c s = if (argOf c).extractLsb' 12 52 = 0#52
      then exec (.tblRead ((argOf c).extractLsb' 0 12)) s else .next (raise .illegalCommand 0x03#8 s)) ∧
  (∀ s : State, exec (.tblRead 0#12) s = .next (s.withOut (s.out ++ [Record.rsp 0x00000000#32])) ∧
    exec (.tblRead 2047#12) s = .next (s.withOut (s.out ++ [Record.rsp 0x264B06E6#32])) ∧
    exec (.tblRead 2048#12) s = .next (s.withOut (s.out ++ [Record.rsp 0x00000000#32])) ∧
    (s.params.w = 16 → exec (.tblRead 2303#12) s = .next (s.withOut (s.out ++ [Record.rsp 0x0D7139D7#32])))) ∧
  ∀ (s : State) (rest : List U72), s.cmds = 0x030000000000000001#72 :: rest →
    ∃ t, step s = .next t ∧ t.outWords = s.outWords ++ [0x010000000077073096#72]

/-- Rule R55: no command and no act of the host changes what a lookup reads; a repeated read of a register or of a table
word answers the same value and changes nothing but `OUT`. -/
def Obligations.ReadsAreIdempotentAndTablesNeverChange : Prop :=
  (∀ (s t : State) (idx : Fin 2304), step s = .next t → memRead t.params.w idx = memRead s.params.w idx) ∧
  (∀ (a : HostAct) (s : State) (idx : Fin 2304), memRead (hostAct a s).params.w idx = memRead s.params.w idx) ∧
  (∀ (s : State) (reg : U8), reg.toNat ≤ 3 → ∃ v,
    exec (.rdreg reg) s = .next (s.withOut (s.out ++ [Record.rsp v])) ∧
    exec (.rdreg reg) (s.withOut (s.out ++ [Record.rsp v])) = .next (s.withOut (s.out ++ [Record.rsp v, Record.rsp v]))) ∧
  ∀ (s : State) (idx : U12), idx.toNat < 2304 → ∃ v,
    exec (.tblRead idx) s = .next (s.withOut (s.out ++ [Record.rsp v])) ∧
    exec (.tblRead idx) (s.withOut (s.out ++ [Record.rsp v])) = .next (s.withOut (s.out ++ [Record.rsp v, Record.rsp v]))

/-! ### Batched computation -/

/-- Rules R130, R134: each batched command that exists on the instance replaces `REM` by `crc(REM, bytes)` and changes
nothing else, and any split of a byte sequence into batched commands leaves `crc` of the whole sequence. -/
def Obligations.BatchedCommandsComputeTheByteLoop : Prop :=
  (∀ (s : State) (b0 : U8), exec (.crcByte b0) s = .next (s.withRem (crc s.rem [b0]))) ∧
  (∀ (s : State) (b0 b1 b2 b3 : U8), 4 ≤ s.params.sliceMax.width →
    exec (.crcSlice4 b0 b1 b2 b3) s = .next (s.withRem (crc s.rem [b0, b1, b2, b3]))) ∧
  (∀ (s : State) (b0 b1 b2 b3 b4 b5 b6 b7 : U8), s.params.sliceMax.width = 8 →
    exec (.crcSlice8 b0 b1 b2 b3 b4 b5 b6 b7) s = .next (s.withRem (crc s.rem [b0, b1, b2, b3, b4, b5, b6, b7]))) ∧
  ∀ (s : State) (data : List U8) (is : List Instr), Splits s.params.sliceMax data is →
    issueAll (wordsOf is) s = .next (s.withRem (crc s.rem data))

/-- Derived (rules R131 to R133, corner cases over all remainders): data equal to the low bytes of `REM` cancels it. -/
def Obligations.BatchedDataEqualToTheRemainderCancelsIt : Prop :=
  (∀ s : State, exec (.crcByte (byteOf s.rem 0)) s = .next (s.withRem (s.rem >>> 8))) ∧
  (∀ s : State, 4 ≤ s.params.sliceMax.width →
    exec (.crcSlice4 (byteOf s.rem 0) (byteOf s.rem 1) (byteOf s.rem 2) (byteOf s.rem 3)) s =
      .next (s.withRem 0#32)) ∧
  ∀ s : State, s.params.sliceMax.width = 8 →
    exec (.crcSlice8 (byteOf s.rem 0) (byteOf s.rem 1) (byteOf s.rem 2) (byteOf s.rem 3) 0#8 0#8 0#8 0#8) s =
      .next (s.withRem 0#32)

/-- Derived (rules R78, R132, R133; log entry 7): a slice command the instance lacks takes `IllegalCommand` and leaves
`REM` alone. -/
def Obligations.AbsentSliceCommandsTakeIllegalCommand : Prop :=
  (∀ (s : State) (b0 b1 b2 b3 : U8), s.params.sliceMax.width < 4 →
    exec (.crcSlice4 b0 b1 b2 b3) s = .next (raise .illegalCommand 0x11#8 s)) ∧
  ∀ (s : State) (b0 b1 b2 b3 b4 b5 b6 b7 : U8), s.params.sliceMax.width < 8 →
    exec (.crcSlice8 b0 b1 b2 b3 b4 b5 b6 b7) s = .next (raise .illegalCommand 0x12#8 s)

/-- Derived (rules R85, R140, R141): the command sequence of `CRC32.N init, data` delivers `crc(init, data)` for every
`N` the instance has, leaves it in `REM`, and changes nothing else. -/
def Obligations.BatchedComputationDeliversTheCrc : Prop :=
  ∀ (s : State) (n : SliceMax) (init : U32) (data : List U8), n.width ≤ s.params.sliceMax.width →
    issueAll (wordsOf (crc32Commands n init data)) s =
      .next (emit (.rsp (crc init data)) (s.withRem (crc init data)))

/-- Rule R144: the boundaries of the batched computation. Empty input is a load and a read and delivers the initial
remainder; one byte is one `CRC_BYTE`; fewer than `N` bytes issue no slice command. -/
def Obligations.ShortInputsUseNoSliceCommand : Prop :=
  (∀ (n : SliceMax) (init : U32), crc32Commands n init [] = [.wrreg 0#8 init, .rdreg 0#8]) ∧
  (∀ (s : State) (n : SliceMax) (init : U32),
    issueAll (wordsOf (crc32Commands n init [])) s = .next (emit (.rsp init) (s.withRem init))) ∧
  (∀ (n : SliceMax) (init : U32) (b : U8), crc32Commands n init [b] = [.wrreg 0#8 init, .crcByte b, .rdreg 0#8]) ∧
  ∀ (n : SliceMax) (init : U32) (data : List U8), data.length < n.width →
    crc32Commands n init data = .wrreg 0#8 init :: data.map .crcByte ++ [.rdreg 0#8]

/-! ### Rolling computation -/

/-- Rule R161: rolling equals from scratch. For every sequence of `W + 1` bytes, `ROLL_STEP` takes the checksum of its
first `W` bytes to the checksum of its last `W` bytes. -/
def Obligations.RollStepEqualsFromScratch : Prop :=
  ∀ (s : State) (outb inb : U8) (mid : List U8), mid.length + 1 = s.params.w →
    s.rem = crc 0#32 (outb :: mid) →
    exec (.rollStep inb outb) s = .next (s.withRem (crc 0#32 (mid ++ [inb])))

/-- Rule R160: what `ROLL_STEP` computes for every `REM`, `inb` and `outb`: cancel first, then one byte step, in both of
the rule's forms; the encoding; the corner cases and the example. -/
def Obligations.RollStepCancelsThenUpdates : Prop :=
  (∀ (s : State) (inb outb : U8), ∃ x, x = s.rem ^^^ crc 0#32 (outb :: List.replicate (s.params.w - 1) 0#8) ∧
    exec (.rollStep inb outb) s = .next (s.withRem (updateByte x inb)) ∧
    updateByte x inb = (x >>> 8) ^^^ groupRead s.params.w 0 (byteOf (x ^^^ zext32 inb) 0)) ∧
  (∀ (s : State) (c : U72), opOf c = 0x20#8 →
    issue c s = if (argOf c).extractLsb' 16 48 = 0#48
      then exec (.rollStep ((argOf c).extractLsb' 0 8) ((argOf c).extractLsb' 8 8)) s
      else .next (raise .illegalCommand 0x20#8 s)) ∧
  (∀ s : State, s.rem = 0#32 → exec (.rollStep 0#8 0#8) s = .next s) ∧
  (∀ (s : State) (b : U8), s.rem = crc 0#32 (List.replicate s.params.w b) → exec (.rollStep b b) s = .next s) ∧
  (∀ (s : State) (inb : U8), exec (.rollStep inb 0#8) s = exec (.crcByte inb) s) ∧
  (∀ s : State, s.params.w = 16 → s.rem = 0xFFFFFFFF#32 →
    exec (.rollStep 0xFF#8 0xFF#8) s = .next (s.withRem 0x1845C9B1#32)) ∧
  (∀ s : State, s.params.w = 16 → s.rem = 0x57BF1C5E#32 →
    exec (.rollStep 0x41#8 0x41#8) s = .next (s.withRem 0x57BF1C5E#32)) ∧
  ∀ (s : State) (rest : List U72), s.params.w = 16 → s.rem = 0x57BF1C5E#32 →
    s.cmds = 0x200000000000004142#72 :: rest → ∃ t, step s = .next t ∧ t.rem = 0xCEB64DE4#32

/-- Derived (rules R162, R163, marked derived in the spec, and conflict C1): the printed order, update then cancel,
gives the same value with a table advanced by one more zero byte; and a window checksum started from `r0` instead of 0
rolls to `Z^(W+1)(r0) XOR` the from-0 checksum of the new window. -/
def Obligations.RollStepInThePrintedOrderNeedsOneMoreZeroByte : Prop :=
  (∀ (s : State) (inb outb : U8),
    exec (.rollStep inb outb) s =
      .next (s.withRem (updateByte s.rem inb ^^^ crc 0#32 (outb :: List.replicate s.params.w 0#8)))) ∧
  ∀ (s : State) (r0 : U32) (outb inb : U8) (mid : List U8), mid.length + 1 = s.params.w →
    s.rem = crc r0 (outb :: mid) →
    exec (.rollStep inb outb) s =
      .next (s.withRem (zeroAdvance (s.params.w + 1) r0 ^^^ crc 0#32 (mid ++ [inb])))

/-! ### Match detection -/

/-- Derived (rule R183, its pseudocode): the next state of `SCAN_BYTE` field by field, with the comparison written as the
rule's loop over `a = lo, ..., o - 1`, in every state whose `HIST` is in canonical form and whose slot about to be
overwritten, in the slide phase, holds `outb`. -/
def Obligations.ScanByteFollowsItsPseudocode : Prop :=
  ∀ (s : State) (b0 outb : U8), s.scanPos ≠ 0xFFFFFFFF#32 → s.hist.Wf →
    (s.params.w ≤ s.scanPos.toNat → s.wbuf[s.scanPos.toNat % s.params.w]? = some outb) →
    ∃ t v o lo, exec (.scanByte b0) s = .next t ∧
      v = (if s.scanPos.toNat < s.params.w then updateByte s.scanSum b0
        else updateByte (s.scanSum ^^^ crc 0#32 (outb :: List.replicate (s.params.w - 1) 0#8)) b0) ∧
      o = s.scanPos.toNat + 1 - s.params.w ∧
      lo = (if o > s.params.histDepth then o - s.params.histDepth else 0) ∧
      t.scanSum = v ∧ t.scanPos.toNat = s.scanPos.toNat + 1 ∧
      t.wbuf = s.wbuf.set (s.scanPos.toNat % s.params.w) b0 ∧
      t.params = s.params ∧ t.rem = s.rem ∧ t.err = s.err ∧ t.cause = s.cause ∧ t.cmds = s.cmds ∧ t.taken = s.taken ∧
      (s.scanPos.toNat + 1 < s.params.w → t.out = s.out ∧ t.hist = s.hist) ∧
      (s.params.w ≤ s.scanPos.toNat + 1 →
        t.out = s.out ++ ((List.range' lo (o - lo)).filter (fun a => Hist.lookup s.hist a == some v)).map
          (fun a => Record.matchPair (BitVec.ofNat 32 a) (BitVec.ofNat 32 o)) ∧
        ∀ a, Hist.lookup t.hist a =
          if a = o then some v
          else if s.params.histDepth ≤ o ∧ a = o - s.params.histDepth then none
          else Hist.lookup s.hist a)

/-- Rule R187: compare and report. When a window is completed at offset `o`, one `MATCH(a, o)` is emitted for every `a`
with `HIST[a]` equal to its checksum, `a` rising, every `a` below `o`, and the current window enters `HIST` only
afterwards. The premises on `HIST` are parts of the scan invariant. -/
def Obligations.EveryEqualEarlierWindowIsReportedInRisingOrder : Prop :=
  ∀ (s : State) (b0 : U8), s.scanPos ≠ 0xFFFFFFFF#32 → s.params.w ≤ s.scanPos.toNat + 1 → s.hist.Wf →
    (∀ a v, Hist.lookup s.hist a = some v →
      a < s.scanPos.toNat + 1 - s.params.w ∧ s.scanPos.toNat + 1 - s.params.w ≤ a + s.params.histDepth) →
    ∃ (t : State) (o : Nat) (as : List Nat), exec (.scanByte b0) s = .next t ∧ o = s.scanPos.toNat + 1 - s.params.w ∧
      t.out = s.out ++ as.map (fun a => Record.matchPair (BitVec.ofNat 32 a) (BitVec.ofNat 32 o)) ∧
      as.Pairwise (· < ·) ∧ (∀ a, a ∈ as ↔ Hist.lookup s.hist a = some t.scanSum) ∧ (∀ a ∈ as, a < o) ∧
      Hist.lookup s.hist o = none ∧ Hist.lookup t.hist o = some t.scanSum

/-- Rule R188: the history update, in every state the bytes of a stream lead to. `HIST` is defined exactly on
`max(0, o - HIST_DEPTH) <= a < o` when the window at `o` is compared; afterwards `HIST[o]` is its checksum and the entry
`HIST_DEPTH` back is gone, its slot being the slot of `o`; never more than `HIST_DEPTH` entries; a pair of equal windows
is reported exactly when `o - a <= HIST_DEPTH`; with `HIST_DEPTH >= 2^32` nothing is ever removed. -/
def Obligations.HistoryKeepsTheMostRecentWindows : Prop :=
  ∀ (stream : List U8) (s : State) (b0 : U8), ScanRel stream s → s.scanPos ≠ 0xFFFFFFFF#32 →
    s.params.w ≤ stream.length + 1 →
    ∃ t o rs, exec (.scanByte b0) s = .next t ∧ o = stream.length + 1 - s.params.w ∧ t.out = s.out ++ rs ∧
      (∀ a, (Hist.lookup s.hist a).isSome = true ↔ o - s.params.histDepth ≤ a ∧ a < o) ∧
      Hist.lookup t.hist o = some t.scanSum ∧
      (s.params.histDepth ≤ o → Hist.lookup t.hist (o - s.params.histDepth) = none ∧
        (o - s.params.histDepth) % s.params.histDepth = o % s.params.histDepth) ∧
      (∀ a, a ≠ o → ¬ (s.params.histDepth ≤ o ∧ a = o - s.params.histDepth) →
        Hist.lookup t.hist a = Hist.lookup s.hist a) ∧
      s.hist.length ≤ s.params.histDepth ∧ t.hist.length ≤ s.params.histDepth ∧
      (∀ a, a < o → windowSum s.params.w (stream ++ [b0]) a = windowSum s.params.w (stream ++ [b0]) o →
        (Record.matchPair (BitVec.ofNat 32 a) (BitVec.ofNat 32 o) ∈ rs ↔ o - a ≤ s.params.histDepth)) ∧
      (2 ^ 32 ≤ s.params.histDepth → ∀ a v, Hist.lookup s.hist a = some v → Hist.lookup t.hist a = some v)

/-- Derived: rule R190 (marked derived in the spec), the scan invariant carried by one byte: if the bytes `stream`
explain the scan state, then after `SCAN_BYTE b0` the bytes `stream ++ [b0]` do, and `WVALID` says whether a window is
complete. -/
def Obligations.ScanByteKeepsTheScanInvariant : Prop :=
  ∀ (stream : List U8) (s : State) (b0 : U8), ScanRel stream s → s.scanPos ≠ 0xFFFFFFFF#32 →
    ∃ t, exec (.scanByte b0) s = .next t ∧ ScanRel (stream ++ [b0]) t ∧
      t.wvalid = decide (s.params.w ≤ (stream ++ [b0]).length) ∧
      t.params = s.params ∧ t.rem = s.rem ∧ t.err = s.err ∧ t.cause = s.cause ∧ t.cmds = s.cmds ∧ t.taken = s.taken

/-- Rules R184, R236: position overflow. At `SCAN_POS = 0xFFFFFFFF` a `SCAN_BYTE` raises `PositionOverflow` and does
nothing else, and so does every later one; `SCAN_END` then ends the stream; a stream has at most 2^32 - 1 bytes and the
largest window offset is 2^32 - 1 - W; the word of the `FAULT` record. -/
def Obligations.PositionOverflowFaultsAndConsumesNothing : Prop :=
  (∀ (s : State) (b0 : U8), s.scanPos = 0xFFFFFFFF#32 →
    exec (.scanByte b0) s = .next (raise .positionOverflow 0x30#8 s) ∧
    (raise .positionOverflow 0x30#8 s).scanPos = 0xFFFFFFFF#32 ∧
    (raise .positionOverflow 0x30#8 s).scanSum = s.scanSum ∧ (raise .positionOverflow 0x30#8 s).wbuf = s.wbuf ∧
    (raise .positionOverflow 0x30#8 s).hist = s.hist ∧
    (raise .positionOverflow 0x30#8 s).outWords = s.outWords ++ [0xFF0000000000003005#72]) ∧
  (∀ s : State, s.scanPos = 0xFFFFFFFF#32 → ∃ t, exec .scanEnd s = .next t ∧ t.scanPos = 0#32) ∧
  ∀ (stream : List U8) (s : State), ScanRel stream s → stream.length ≤ 2 ^ 32 - 1 ∧
    ∀ a, (Hist.lookup s.hist a).isSome = true → s.params.w ≤ 2 ^ 32 - 1 ∧ a ≤ 2 ^ 32 - 1 - s.params.w

/-- Derived: rule R189 (a) and (b) (marked derived in the spec): what a `MATCH` guarantees. Equal windows no more than
`HIST_DEPTH` apart are reported when the later one is completed; a reported pair has equal checksums of `W`-byte
windows, the later one being the window just completed. -/
def Obligations.MatchesAreCompleteAndAreCandidates : Prop :=
  ∀ (stream : List U8) (s : State) (b0 : U8), ScanRel stream s → s.scanPos ≠ 0xFFFFFFFF#32 →
    ∃ t rs, exec (.scanByte b0) s = .next t ∧ t.out = s.out ++ rs ∧
      (∀ a o, o + s.params.w = stream.length + 1 → a < o → o - a ≤ s.params.histDepth →
        ((stream ++ [b0]).drop a).take s.params.w = ((stream ++ [b0]).drop o).take s.params.w →
        Record.matchPair (BitVec.ofNat 32 a) (BitVec.ofNat 32 o) ∈ rs) ∧
      ∀ x y, Record.matchPair x y ∈ rs →
        x.toNat < y.toNat ∧ y.toNat + s.params.w = stream.length + 1 ∧
        crc 0#32 (((stream ++ [b0]).drop x.toNat).take s.params.w) =
          crc 0#32 (((stream ++ [b0]).drop y.toNat).take s.params.w)

/-- Derived: rule R191 (marked derived in the spec): from a cleared scan unit, a stream of fewer than `W` bytes, and one
of exactly `W`, emits nothing; `WVALID` is set by the latter only; and `SCAN_END` on a cleared scan unit changes
nothing. -/
def Obligations.StreamsUpToOneWindowEmitNoMatch : Prop :=
  (∀ (s : State) (data : List U8), ScanRel [] s → data.length ≤ s.params.w → data.length < 2 ^ 32 →
    ∃ t, issueAll (wordsOf (data.map .scanByte)) s = .next t ∧ t.out = s.out ∧
      t.wvalid = decide (data.length = s.params.w)) ∧
  ∀ s : State, ScanRel [] s → exec .scanEnd s = .next s

/-- Derived: rule R197 (marked derived in the spec): for windows of at most 4 bytes the checksum is one-to-one; from 5
bytes on two different windows share a checksum; and a message followed by its own remainder, low byte first, leaves
0. -/
def Obligations.FalsePositivesNeedWindowsOfFiveBytes : Prop :=
  (∀ a b : List U8, a.length = b.length → a.length ≤ 4 → crc 0#32 a = crc 0#32 b → a = b) ∧
  (∀ w : Nat, 5 ≤ w → ∃ a b : List U8, a.length = w ∧ b.length = w ∧ a ≠ b ∧ crc 0#32 a = crc 0#32 b) ∧
  ∀ (r : U32) (p : List U8),
    crc r (p ++ [byteOf (crc r p) 0, byteOf (crc r p) 1, byteOf (crc r p) 2, byteOf (crc r p) 3]) = 0#32

/-- Rule R195: `SCAN_END`. The scan unit is in its reset state and nothing else changes; `WVALID` reads 0; the encoding;
a cleared scan unit is left as it is; and the rule's example: `STATUS` reads 0 afterwards where no fault was raised. -/
def Obligations.ScanEndClearsTheScanUnit : Prop :=
  (∀ s : State, ∃ t, exec .scanEnd s = .next t ∧ t.scanSum = 0#32 ∧ t.scanPos = 0#32 ∧
    (∀ j, j < s.params.w → t.wbuf[j]? = some 0#8) ∧ t.wbuf.length = s.params.w ∧ (∀ a, Hist.lookup t.hist a = none) ∧
    t.wvalid = false ∧ t.err = s.err ∧ t.cause = s.cause ∧ t.rem = s.rem ∧ t.out = s.out ∧ t.params = s.params ∧
    t.cmds = s.cmds ∧ t.taken = s.taken ∧
    t.scanSum = (State.resetOf s.params).scanSum ∧ t.scanPos = (State.resetOf s.params).scanPos ∧
    t.wbuf = (State.resetOf s.params).wbuf ∧ t.hist = (State.resetOf s.params).hist) ∧
  (∀ (s : State) (c : U72), opOf c = 0x31#8 →
    issue c s = if argOf c = 0#64 then exec .scanEnd s else .next (raise .illegalCommand 0x31#8 s)) ∧
  (∀ s : State, s.ScanInv → s.scanPos = 0#32 → exec .scanEnd s = .next s) ∧
  ∀ (s : State) (rest : List U72), s.cmds = 0x310000000000000000#72 :: rest → s.err = false → s.cause = 0#4 →
    ∃ t, step s = .next t ∧ exec (.rdreg 3#8) t = .next (t.withOut (t.out ++ [Record.rsp 0x00000000#32]))

/-- Derived: rules R180 and R274: the scan family and the commands that use `REM` do not touch each other's state, so
running one of each in either order leaves the same state. -/
def Obligations.ScanAndRemCommandsCommute : Prop :=
  ∀ (s : State) (i j : Instr), i.wellFormed s.params.sliceMax = true →
    ((batchedData i).isSome = true ∨ (∃ inb outb, i = .rollStep inb outb) ∨ ∃ val, i = .wrreg 0#8 val) →
    ((∃ b0, j = .scanByte b0) ∨ j = .scanEnd) →
    ∃ t u r, exec i s = .next t ∧ exec j s = .next u ∧ exec j t = .next r ∧ exec i u = .next r

/-- Derived (rules R22, R145): which commands write what. `REM` changes only under `WRREG REM`, the batched commands and
`ROLL_STEP`; the scan state only under `SCAN_BYTE` and `SCAN_END`; no command changes the parameters, the waiting words
or the count of taken records. -/
def Obligations.EachCommandWritesOnlyItsOwnState : Prop :=
  ∀ (i : Instr) (s t : State), exec i s = .next t →
    (t.rem ≠ s.rem → (∃ val, i = .wrreg 0#8 val) ∨ (batchedData i).isSome = true ∨ ∃ inb outb, i = .rollStep inb outb) ∧
    (t.scanSum ≠ s.scanSum ∨ t.scanPos ≠ s.scanPos ∨ t.wbuf ≠ s.wbuf ∨ t.hist ≠ s.hist →
      (∃ b0, i = .scanByte b0) ∨ i = .scanEnd) ∧
    t.params = s.params ∧ t.cmds = s.cmds ∧ t.taken = s.taken

/-! ### Faults and `STATUS` -/

/-- Rule R240: what raising a fault does, for every cause, `OP` and state, with the 72 bits of the record; every other
field is unchanged, and the engine goes on: the next waiting word runs. -/
def Obligations.RaisingAFaultRecordsItAndNothingElse : Prop :=
  ∀ (f : Cause) (op : U8) (s : State),
    (raise f op s).cause = (if s.err = false then f.code else s.cause) ∧ (raise f op s).err = true ∧
    (raise f op s).out = s.out ++ [Record.fault f op] ∧
    (raise f op s).outWords = s.outWords ++ [0xFF#8 ++ 0#48 ++ op ++ (f.code.setWidth 8)] ∧
    (raise f op s).params = s.params ∧ (raise f op s).rem = s.rem ∧ (raise f op s).scanSum = s.scanSum ∧
    (raise f op s).scanPos = s.scanPos ∧ (raise f op s).wbuf = s.wbuf ∧ (raise f op s).hist = s.hist ∧
    (raise f op s).cmds = s.cmds ∧ (raise f op s).taken = s.taken ∧
    (∀ c rest, s.cmds = c :: rest → step (raise f op s) = issue c (raise f op (s.withCmds rest))) ∧
    ∃ t, step (raise f op s) = .next t

/-- Rules R239, R241: one command word fails at most one check, the first in the rule's order, and a faulting command has
no effect but `raise`; a command that passes every check raises nothing; and the rule's two examples. -/
def Obligations.FirstFailedCheckIsTheOnlyEffect : Prop :=
  (∀ (s : State) (c : U72), ∃! x, FirstFailedCheck s c x) ∧
  (∀ (s : State) (c : U72) (f : Cause), FirstFailedCheck s c (some f) → issue c s = .next (raise f (opOf c) s)) ∧
  (∀ (s : State) (c : U72), FirstFailedCheck s c none →
    ∃ t rs, issue c s = .next t ∧ t.err = s.err ∧ t.cause = s.cause ∧ t.out = s.out ++ rs ∧
      ∀ r ∈ rs, r.isFault = false) ∧
  (∀ (s : State) (c : U72), opOf c = 0x02#8 → (argOf c).extractLsb' 32 8 = 7#8 → (argOf c).extractLsb' 40 24 ≠ 0#24 →
    issue c s = .next (raise .illegalCommand 0x02#8 s)) ∧
  ∀ s : State, issue 0x020000000700000000#72 s = .next (raise .badRegister 0x02#8 s)

/-- Rule R28: `ERR` is set by every fault, no command clears it, only reset does. -/
def Obligations.ErrIsStickyUntilReset : Prop :=
  (∀ (f : Cause) (op : U8) (s : State), (raise f op s).err = true) ∧
  (∀ s t : State, step s = .next t → s.err = true → t.err = true) ∧
  (∀ (a : HostAct) (s : State), s.err = true → (hostAct a s).err = false → a = .reset) ∧
  ∀ s : State, (hostAct .reset s).err = false

/-- Rule R29: `CAUSE` holds a code of rule R231; a fault writes it only when `ERR` was 0; legal values are 0 to 5, and
every step keeps that; only reset clears it. -/
def Obligations.CauseKeepsTheFirstFault : Prop :=
  (∀ (f : Cause) (op : U8) (s : State), s.err = false → (raise f op s).cause = f.code) ∧
  (∀ (f : Cause) (op : U8) (s : State), s.err = true → (raise f op s).cause = s.cause) ∧
  (∀ s t : State, step s = .next t → t.cause ≠ s.cause → s.err = false ∧ ∃ f : Cause, t.cause = f.code) ∧
  (∀ f : Cause, 1 ≤ f.code.toNat ∧ f.code.toNat ≤ 5) ∧
  (∀ s t : State, s.FaultInv → step s = .next t → t.FaultInv ∧ t.cause.toNat ≤ 5) ∧
  (∀ (a : HostAct) (s : State), (hostAct a s).cause ≠ s.cause → a = .reset) ∧
  ∀ s : State, (hostAct .reset s).cause = 0#4

/-- Rule R242: a second fault keeps `ERR` and the first cause and emits its own record; no command and no act of the host
but reset clears either; and a command after a fault does
what it would have done without one: `ERR` and `CAUSE` change nothing but what `RDREG STATUS` reads and what a further
fault records in `CAUSE`. -/
def Obligations.CommandsAfterAFaultAreNotAffectedByIt : Prop :=
  (∀ (f g : Cause) (op op' : U8) (s : State),
    (raise g op' (raise f op s)).err = true ∧ (raise g op' (raise f op s)).cause = (raise f op s).cause ∧
    (raise g op' (raise f op s)).out = s.out ++ [Record.fault f op, Record.fault g op']) ∧
  (∀ s t : State, step s = .next t → s.err = true → t.err = true ∧ t.cause = s.cause) ∧
  (∀ (a : HostAct) (s : State), a ≠ .reset → (hostAct a s).err = s.err ∧ (hostAct a s).cause = s.cause) ∧
  ∀ (i : Instr) (s : State) (e : Bool) (c : BitVec 4), i ≠ .rdreg 3#8 →
    (∃ t, exec i s = .next t ∧ t.err = s.err ∧ t.cause = s.cause ∧
      exec i (s.withStatus e c) = .next (t.withStatus e c)) ∨
    ∃ f op, exec i s = .next (raise f op s) ∧ exec i (s.withStatus e c) = .next (raise f op (s.withStatus e c))

/-- Rule R30: the reserved bits of `STATUS` read 0. -/
def Obligations.StatusReservedBitsReadZero : Prop :=
  ∀ s : State, ∃ v, exec (.rdreg 3#8) s = .next (s.withOut (s.out ++ [Record.rsp v])) ∧ v &&& 0xFFFFFF0C#32 = 0#32

/-- Rule R27: `WVALID` is the comparison `SCAN_POS >= W` at the time of the read; it becomes 1 when the `W`-th
`SCAN_BYTE` of a stream completes, and returns to 0 at `SCAN_END` and at reset. -/
def Obligations.WvalidIsTheComparisonAtTheRead : Prop :=
  (∀ s : State, s.statusWord.getLsbD 0 = decide (s.params.w ≤ s.scanPos.toNat)) ∧
  (∀ (s : State) (b0 : U8), s.scanPos ≠ 0xFFFFFFFF#32 → s.scanPos.toNat + 1 = s.params.w →
    s.wvalid = false ∧ ∃ t, exec (.scanByte b0) s = .next t ∧ t.wvalid = true) ∧
  (∀ (s : State) (b0 : U8), s.scanPos ≠ 0xFFFFFFFF#32 → s.scanPos.toNat + 1 < s.params.w →
    ∃ t, exec (.scanByte b0) s = .next t ∧ t.wvalid = false) ∧
  (∀ s : State, ∃ t, exec .scanEnd s = .next t ∧ t.wvalid = false) ∧
  ∀ s : State, s.applyReset.wvalid = false

/-! ### Reset, ports and the invariant of every run -/

/-- Rule R41: the reset value of every piece of state, on every instance; the table space is the same before and after.
That no word waits and no record has been taken are the values of the model's own fields (log entries 3, 4), which the
statement leaves out. -/
def Obligations.ResetGivesEveryPieceOfStateItsValue : Prop :=
  ∀ s : State, s.applyReset.rem = 0x00000000#32 ∧ s.applyReset.scanSum = 0x00000000#32 ∧
    s.applyReset.scanPos = 0x00000000#32 ∧ s.applyReset.statusWord = 0x00000000#32 ∧ s.applyReset.wvalid = false ∧
    s.applyReset.err = false ∧ s.applyReset.cause = 0#4 ∧ s.applyReset.wbuf.length = s.params.w ∧
    (∀ j, j < s.params.w → s.applyReset.wbuf[j]? = some 0x00#8) ∧ (∀ a, Hist.lookup s.applyReset.hist a = none) ∧
    s.applyReset.out = [] ∧ ∀ idx, memRead s.applyReset.params.w idx = memRead s.params.w idx

/-- Derived (rules R42, R190; R41): the reset state of every instance meets the invariant. -/
def Obligations.ResetMeetsTheInvariant : Prop :=
  (∀ p : Params, (State.resetOf p).Inv) ∧ State.reset.Inv

/-- Derived: rules R42 and R190 (marked derived in the spec), with rules R26 and R73: every step, from every state that
meets it, keeps the invariant: the scan state is explained by the bytes of the current stream, `ERR` and `CAUSE` by the
first `FAULT` record, and every `MATCH` has its smaller offset first. -/
def Obligations.EveryStepKeepsTheInvariant : Prop :=
  ∀ s t : State, s.Inv → step s = .next t → t.Inv

/-- Derived (rules R17, R260, R273; log entries 3, 4, 13): every act of the host keeps the invariant; and what an offer
and a take do to the ports. -/
def Obligations.EveryHostActKeepsTheInvariant : Prop :=
  (∀ (a : HostAct) (s : State), s.Inv → (hostAct a s).Inv) ∧
  (∀ (s : State) (c : U72), (hostAct (.offer c) s).cmds = s.cmds ++ [c]) ∧
  ∀ s : State, hostAct .reset s = State.resetOf s.params

/-- Rule R272: output order. A step only appends to `OUT`; the `MATCH` records it appends rise in `offset_a`; a `FAULT`
is the only record of its command; and the host receives the records in `OUT` order. -/
def Obligations.RecordsLeaveInCommandOrder : Prop :=
  (∀ s t : State, s.hist.Wf → step s = .next t → ∃ rs, t.out = s.out ++ rs ∧
    rs.Pairwise (fun x y => ∀ a b c d, x = .matchPair a b → y = .matchPair c d → a < c) ∧
    ∀ f op, .fault f op ∈ rs → rs = [Record.fault f op]) ∧
  (∀ s t : State, step s = .next t → s.PortInv → t.received = s.received) ∧
  (∀ (s : State) (r : Record), s.pendingRecord = some r → s.take.received = s.received ++ [r]) ∧
  ∀ s : State, s.received <+: s.out
end

