-- ==== Sys2Proof/Laws/Decode.lean ====
section
/-! SUPPORT. Command words as `OP ++ ARG`, and what selecting a row of the opcode map means field by field; one spec
lemma for each outcome of `decode`. -/

namespace Sys2Proof

/-- A command word is its `OP` followed by its `ARG` (rule R70). -/
theorem word_eq_op_append_arg (c : U72) : c = (opOf c ++ argOf c : BitVec (8 + 64)) := by
  apply BitVec.eq_of_getLsbD_eq
  intro i hi
  simp only [opOf, argOf, BitVec.getLsbD_append, BitVec.getLsbD_extractLsb']
  by_cases h : i < 64
  · simp [h]
  · simp [h, show i - 64 < 8 by omega, show 64 + (i - 64) = i by omega]

/-- Two concatenations agree when their parts do. -/
theorem append_eq_append_iff {m n : Nat} {a b : BitVec m} {c d : BitVec n} : a ++ c = b ++ d ↔ a = b ∧ c = d := by
  constructor
  · intro h
    constructor
    · apply BitVec.eq_of_getLsbD_eq
      intro i hi
      have := congrArg (fun x => x.getLsbD (n + i)) h
      simpa [BitVec.getLsbD_append, show ¬ (n + i < n) by omega] using this
    · apply BitVec.eq_of_getLsbD_eq
      intro i hi
      have := congrArg (fun x => x.getLsbD i) h
      simpa [BitVec.getLsbD_append, hi] using this
  · rintro ⟨rfl, rfl⟩; rfl

namespace Mnemonic

/-- The `mask` and `match` columns split into the `OP` byte and the reserved bits of the format (rules R71, R77). -/
theorem mask_match_split (m : Mnemonic) :
    m.maskWord = (0xFF#8 ++ m.format.reserved : BitVec (8 + 64)) ∧
    m.matchWord = (m.op ++ 0#64 : BitVec (8 + 64)) := by
  cases m <;> decide

/-- `C & mask = match` says: the row's `OP`, and every reserved bit 0. -/
theorem mask_match_iff (m : Mnemonic) (c : U72) :
    c &&& m.maskWord = m.matchWord ↔ opOf c = m.op ∧ argOf c &&& m.format.reserved = 0#64 := by
  have split : (opOf c ++ argOf c) &&& (0xFF#8 ++ m.format.reserved) =
      (opOf c &&& 0xFF#8) ++ (argOf c &&& m.format.reserved) := by
    apply BitVec.eq_of_getLsbD_eq
    intro i hi
    simp only [BitVec.getLsbD_append, BitVec.getLsbD_and]
    by_cases h : i < 64 <;> simp [h]
  have all : opOf c &&& 0xFF#8 = opOf c := by
    rw [show (0xFF#8) = BitVec.allOnes 8 by decide, BitVec.and_allOnes]
  conv_lhs => rw [word_eq_op_append_arg c, (mask_match_split m).1, (mask_match_split m).2]
  rw [split, append_eq_append_iff, all]

/-- Selecting a row, field by field. -/
theorem selects_iff (sm : SliceMax) (m : Mnemonic) (c : U72) :
    Selects sm m c ↔ m.minSlice ≤ sm.width ∧ opOf c = m.op ∧ argOf c &&& m.format.reserved = 0#64 := by
  unfold Selects
  rw [mask_match_iff]

theorem ofOp_op (m : Mnemonic) : ofOp m.op = some m := by cases m <;> decide

theorem op_of_ofOp {op : U8} {m : Mnemonic} (h : ofOp op = some m) : m.op = op := by
  unfold ofOp at h
  simpa using List.find?_some h

/-- No two rows share an `OP` value. -/
theorem op_injective {m n : Mnemonic} (h : m.op = n.op) : m = n := by
  have hm := ofOp_op m
  rw [h, ofOp_op] at hm
  simpa using hm.symm

/-- No word selects two rows. -/
theorem selects_unique {sm : SliceMax} {m n : Mnemonic} {c : U72} (hm : Selects sm m c) (hn : Selects sm n c) : m = n :=
  op_injective (((selects_iff ..).mp hm).2.1.symm.trans ((selects_iff ..).mp hn).2.1)

theorem mnemonic_read (m : Mnemonic) (arg : U64) : (m.read arg).mnemonic = m := by cases m <;> rfl

end Mnemonic

/-- A word that selects a row decodes to the operands of that row. -/
theorem decode_of_selects {sm : SliceMax} {m : Mnemonic} {c : U72} (h : Mnemonic.Selects sm m c) :
    decode sm c = .ok (m.read (argOf c)) := by
  obtain ⟨width, op, reserved⟩ := (Mnemonic.selects_iff ..).mp h
  unfold decode
  rw [op, Mnemonic.ofOp_op]
  simp only
  rw [if_neg (by omega), if_neg (by simpa using reserved)]

/-- A word that decodes selects the row of its command, and the operands are that row's. -/
theorem selects_of_decode {sm : SliceMax} {c : U72} {i : Instr} (h : decode sm c = .ok i) :
    Mnemonic.Selects sm i.mnemonic c ∧ i = i.mnemonic.read (argOf c) := by
  unfold decode at h
  split at h
  · simp at h
  · next m hm =>
    split at h
    · simp at h
    · split at h
      · simp at h
      · next hw hr =>
        simp only [Except.ok.injEq] at h
        subst h
        rw [Mnemonic.mnemonic_read]
        exact ⟨(Mnemonic.selects_iff ..).mpr ⟨by omega, (Mnemonic.op_of_ofOp hm).symm, by simpa using hr⟩, rfl⟩

/-- A word that does not decode selects no row. -/
theorem not_selects_of_decode_error {sm : SliceMax} {c : U72} {e : DecodeError} (h : decode sm c = .error e)
    (m : Mnemonic) : ¬ Mnemonic.Selects sm m c := by
  intro hs
  rw [decode_of_selects hs] at h
  simp at h

end Sys2Proof
end

