-- ==== Sys2Proof/Laws/Hist.lean ====
section
/-! SUPPORT. `HIST` as a finite map in canonical form: every operation keeps the form, what a lookup finds after it, and
what the comparison reports. -/

namespace Sys2Proof.Machine

namespace Hist

@[simp] theorem lookup_nil (a : Nat) : lookup [] a = none := rfl

@[simp] theorem lookup_cons (k : Nat) (v : U32) (t : Hist) (a : Nat) :
    lookup ((k, v) :: t) a = if k = a then some v else lookup t a := rfl

/-- An offset below every stored one is not defined. -/
theorem lookup_eq_none_of_lt {h : Hist} {a : Nat} (lt : ∀ e ∈ h, a < e.1) : lookup h a = none := by
  induction h with
  | nil => rfl
  | cons e t ih =>
    have he := lt e (by simp)
    rw [lookup_cons, if_neg (by omega)]
    exact ih fun x hx => lt x (by simp [hx])

/-- In canonical form, what a lookup finds is what the list holds. -/
theorem lookup_eq_some_iff {h : Hist} (wf : h.Wf) (a : Nat) (v : U32) : lookup h a = some v ↔ (a, v) ∈ h := by
  induction h with
  | nil => simp
  | cons e t ih =>
    obtain ⟨k, x⟩ := e
    obtain ⟨hk, ht⟩ := List.pairwise_cons.mp wf
    rw [lookup_cons]
    split
    · subst k
      constructor
      · intro hv; simp_all
      · intro hm
        rcases List.mem_cons.mp hm with hm | hm
        · simp_all
        · have := hk _ hm; simp at this
    · rw [ih ht, List.mem_cons]
      constructor
      · exact Or.inr
      · rintro (hm | hm)
        · simp_all
        · exact hm

theorem insert_mem {h : Hist} {a : Nat} {v : U32} {e : Nat × U32} (m : e ∈ insert h a v) : e = (a, v) ∨ e ∈ h := by
  induction h with
  | nil => simpa [insert] using m
  | cons x t ih =>
    obtain ⟨k, y⟩ := x
    simp only [insert] at m
    split at m
    · simpa using m
    · split at m
      · simp only [List.mem_cons] at m ⊢; tauto
      · simp only [List.mem_cons] at m ⊢
        rcases m with m | m
        · exact .inr (.inl m)
        · rcases ih m with h1 | h1 <;> simp [h1]

/-- `HIST[a] <- v` keeps the canonical form. -/
theorem insert_wf {h : Hist} (wf : h.Wf) (a : Nat) (v : U32) : (insert h a v).Wf := by
  induction h with
  | nil => simp [insert, Wf]
  | cons x t ih =>
    obtain ⟨k, y⟩ := x
    obtain ⟨hk, ht⟩ := List.pairwise_cons.mp wf
    simp only [insert]
    split
    · refine List.pairwise_cons.mpr ⟨?_, wf⟩
      intro e he
      rcases List.mem_cons.mp he with rfl | he
      · assumption
      · have := hk e he; simp at this ⊢; omega
    · split
      · refine List.pairwise_cons.mpr ⟨?_, ht⟩
        intro e he; have := hk e he; simp at this ⊢; omega
      · refine List.pairwise_cons.mpr ⟨?_, ih ht⟩
        intro e he
        rcases insert_mem he with rfl | he
        · simp; omega
        · exact hk e he

/-- Removing an offset keeps the canonical form. -/
theorem remove_wf {h : Hist} (wf : h.Wf) (a : Nat) : (remove h a).Wf := List.Pairwise.filter _ wf

theorem nil_wf : Wf [] := List.Pairwise.nil

/-- A lookup after `HIST[a] <- v`. -/
theorem lookup_insert {h : Hist} (wf : h.Wf) (a b : Nat) (v : U32) :
    lookup (insert h a v) b = if a = b then some v else lookup h b := by
  induction h with
  | nil => simp [insert]
  | cons x t ih =>
    obtain ⟨k, y⟩ := x
    obtain ⟨hk, ht⟩ := List.pairwise_cons.mp wf
    simp only [insert]
    split
    · simp
    · split
      · subst k; simp only [lookup_cons]; split <;> rfl
      · simp only [lookup_cons, ih ht]
        split
        · next h1 => subst h1; rw [if_neg (by omega)]
        · rfl

/-- A lookup after a removal. -/
theorem lookup_remove (h : Hist) (a b : Nat) : lookup (remove h a) b = if a = b then none else lookup h b := by
  induction h with
  | nil => simp [remove]
  | cons x t ih =>
    obtain ⟨k, y⟩ := x
    unfold remove at ih ⊢
    by_cases hka : k = a
    · subst k; simp only [bne_self_eq_false, List.filter_cons, Bool.false_eq_true, if_false, ih, lookup_cons]
      split <;> simp_all
    · have hne : (k != a) = true := by simp [hka]
      simp only [List.filter_cons, hne, if_true, lookup_cons, ih]
      by_cases hkb : k = b
      · subst k; simp [Ne.symm hka]
      · simp [hkb]

/-- The history update keeps the canonical form. -/
theorem update_wf {h : Hist} (wf : h.Wf) (depth o : Nat) (v : U32) : (update h depth o v).Wf := by
  unfold update; split
  · exact remove_wf (insert_wf wf o v) _
  · exact insert_wf wf o v

/-- A lookup after the history update (rule R188). -/
theorem lookup_update {h : Hist} (wf : h.Wf) {depth o : Nat} (pos : 0 < depth) (v : U32) (a : Nat) :
    lookup (update h depth o v) a =
      if a = o then some v else if depth ≤ o ∧ a = o - depth then none else lookup h a := by
  unfold update
  split
  · rw [lookup_remove, lookup_insert wf]
    by_cases ho : a = o
    · subst ho; rw [if_neg (by omega), if_pos rfl, if_pos rfl]
    · rw [if_neg ho]
      by_cases hr : a = o - depth
      · rw [if_pos hr.symm, if_pos ⟨by assumption, hr⟩]
      · rw [if_neg (fun h => hr h.symm), if_neg (fun h => ho h.symm), if_neg (fun h => hr h.2)]
  · rw [lookup_insert wf]
    by_cases ho : a = o
    · simp [ho]
    · rw [if_neg (fun h => ho h.symm), if_neg ho, if_neg (fun h => by omega)]

/-- Which offsets the comparison reports. -/
theorem mem_equalOffsets {h : Hist} (wf : h.Wf) (lo o : Nat) (v : U32) (a : Nat) :
    a ∈ equalOffsets h lo o v ↔ lo ≤ a ∧ a < o ∧ lookup h a = some v := by
  rw [lookup_eq_some_iff wf]
  unfold equalOffsets
  simp only [List.mem_map, List.mem_filter, Bool.and_eq_true, decide_eq_true_eq, beq_iff_eq, Prod.exists,
    exists_and_right, exists_eq_right]
  constructor
  · rintro ⟨x, hm, ⟨h1, h2⟩, rfl⟩; exact ⟨h1, h2, hm⟩
  · rintro ⟨h1, h2, hm⟩; exact ⟨v, hm, ⟨h1, h2⟩, rfl⟩

/-- The comparison reports in rising order. -/
theorem equalOffsets_sorted {h : Hist} (wf : h.Wf) (lo o : Nat) (v : U32) :
    (equalOffsets h lo o v).Pairwise (· < ·) := by
  unfold equalOffsets
  exact List.pairwise_map.mpr (List.Pairwise.filter _ wf)

end Hist

end Sys2Proof.Machine
end

