-- ==== Sys2Proof/Laws/State.lean ====
section
/-! SUPPORT. One lemma per field per update of State, so that no proof unfolds a record update. -/

namespace Sys2Proof.Machine.State

/-! ### `withRem` -/

@[simp] theorem withRem_params (s : State) (v : U32) : (s.withRem v).params = s.params := rfl
@[simp] theorem withRem_rem (s : State) (v : U32) : (s.withRem v).rem = v := rfl
@[simp] theorem withRem_scanSum (s : State) (v : U32) : (s.withRem v).scanSum = s.scanSum := rfl
@[simp] theorem withRem_scanPos (s : State) (v : U32) : (s.withRem v).scanPos = s.scanPos := rfl
@[simp] theorem withRem_err (s : State) (v : U32) : (s.withRem v).err = s.err := rfl
@[simp] theorem withRem_cause (s : State) (v : U32) : (s.withRem v).cause = s.cause := rfl
@[simp] theorem withRem_wbuf (s : State) (v : U32) : (s.withRem v).wbuf = s.wbuf := rfl
@[simp] theorem withRem_hist (s : State) (v : U32) : (s.withRem v).hist = s.hist := rfl
@[simp] theorem withRem_out (s : State) (v : U32) : (s.withRem v).out = s.out := rfl
@[simp] theorem withRem_cmds (s : State) (v : U32) : (s.withRem v).cmds = s.cmds := rfl
@[simp] theorem withRem_taken (s : State) (v : U32) : (s.withRem v).taken = s.taken := rfl

/-! ### `withScanSum` -/

@[simp] theorem withScanSum_params (s : State) (v : U32) : (s.withScanSum v).params = s.params := rfl
@[simp] theorem withScanSum_rem (s : State) (v : U32) : (s.withScanSum v).rem = s.rem := rfl
@[simp] theorem withScanSum_scanSum (s : State) (v : U32) : (s.withScanSum v).scanSum = v := rfl
@[simp] theorem withScanSum_scanPos (s : State) (v : U32) : (s.withScanSum v).scanPos = s.scanPos := rfl
@[simp] theorem withScanSum_err (s : State) (v : U32) : (s.withScanSum v).err = s.err := rfl
@[simp] theorem withScanSum_cause (s : State) (v : U32) : (s.withScanSum v).cause = s.cause := rfl
@[simp] theorem withScanSum_wbuf (s : State) (v : U32) : (s.withScanSum v).wbuf = s.wbuf := rfl
@[simp] theorem withScanSum_hist (s : State) (v : U32) : (s.withScanSum v).hist = s.hist := rfl
@[simp] theorem withScanSum_out (s : State) (v : U32) : (s.withScanSum v).out = s.out := rfl
@[simp] theorem withScanSum_cmds (s : State) (v : U32) : (s.withScanSum v).cmds = s.cmds := rfl
@[simp] theorem withScanSum_taken (s : State) (v : U32) : (s.withScanSum v).taken = s.taken := rfl

/-! ### `withScanPos` -/

@[simp] theorem withScanPos_params (s : State) (v : U32) : (s.withScanPos v).params = s.params := rfl
@[simp] theorem withScanPos_rem (s : State) (v : U32) : (s.withScanPos v).rem = s.rem := rfl
@[simp] theorem withScanPos_scanSum (s : State) (v : U32) : (s.withScanPos v).scanSum = s.scanSum := rfl
@[simp] theorem withScanPos_scanPos (s : State) (v : U32) : (s.withScanPos v).scanPos = v := rfl
@[simp] theorem withScanPos_err (s : State) (v : U32) : (s.withScanPos v).err = s.err := rfl
@[simp] theorem withScanPos_cause (s : State) (v : U32) : (s.withScanPos v).cause = s.cause := rfl
@[simp] theorem withScanPos_wbuf (s : State) (v : U32) : (s.withScanPos v).wbuf = s.wbuf := rfl
@[simp] theorem withScanPos_hist (s : State) (v : U32) : (s.withScanPos v).hist = s.hist := rfl
@[simp] theorem withScanPos_out (s : State) (v : U32) : (s.withScanPos v).out = s.out := rfl
@[simp] theorem withScanPos_cmds (s : State) (v : U32) : (s.withScanPos v).cmds = s.cmds := rfl
@[simp] theorem withScanPos_taken (s : State) (v : U32) : (s.withScanPos v).taken = s.taken := rfl

/-! ### `withStatus` -/

@[simp] theorem withStatus_params (s : State) (e : Bool) (c : BitVec 4) : (s.withStatus e c).params = s.params := rfl
@[simp] theorem withStatus_rem (s : State) (e : Bool) (c : BitVec 4) : (s.withStatus e c).rem = s.rem := rfl
@[simp] theorem withStatus_scanSum (s : State) (e : Bool) (c : BitVec 4) : (s.withStatus e c).scanSum = s.scanSum := rfl
@[simp] theorem withStatus_scanPos (s : State) (e : Bool) (c : BitVec 4) : (s.withStatus e c).scanPos = s.scanPos := rfl
@[simp] theorem withStatus_err (s : State) (e : Bool) (c : BitVec 4) : (s.withStatus e c).err = e := rfl
@[simp] theorem withStatus_cause (s : State) (e : Bool) (c : BitVec 4) : (s.withStatus e c).cause = c := rfl
@[simp] theorem withStatus_wbuf (s : State) (e : Bool) (c : BitVec 4) : (s.withStatus e c).wbuf = s.wbuf := rfl
@[simp] theorem withStatus_hist (s : State) (e : Bool) (c : BitVec 4) : (s.withStatus e c).hist = s.hist := rfl
@[simp] theorem withStatus_out (s : State) (e : Bool) (c : BitVec 4) : (s.withStatus e c).out = s.out := rfl
@[simp] theorem withStatus_cmds (s : State) (e : Bool) (c : BitVec 4) : (s.withStatus e c).cmds = s.cmds := rfl
@[simp] theorem withStatus_taken (s : State) (e : Bool) (c : BitVec 4) : (s.withStatus e c).taken = s.taken := rfl

/-! ### `withWbuf` -/

@[simp] theorem withWbuf_params (s : State) (b : List U8) : (s.withWbuf b).params = s.params := rfl
@[simp] theorem withWbuf_rem (s : State) (b : List U8) : (s.withWbuf b).rem = s.rem := rfl
@[simp] theorem withWbuf_scanSum (s : State) (b : List U8) : (s.withWbuf b).scanSum = s.scanSum := rfl
@[simp] theorem withWbuf_scanPos (s : State) (b : List U8) : (s.withWbuf b).scanPos = s.scanPos := rfl
@[simp] theorem withWbuf_err (s : State) (b : List U8) : (s.withWbuf b).err = s.err := rfl
@[simp] theorem withWbuf_cause (s : State) (b : List U8) : (s.withWbuf b).cause = s.cause := rfl
@[simp] theorem withWbuf_wbuf (s : State) (b : List U8) : (s.withWbuf b).wbuf = b := rfl
@[simp] theorem withWbuf_hist (s : State) (b : List U8) : (s.withWbuf b).hist = s.hist := rfl
@[simp] theorem withWbuf_out (s : State) (b : List U8) : (s.withWbuf b).out = s.out := rfl
@[simp] theorem withWbuf_cmds (s : State) (b : List U8) : (s.withWbuf b).cmds = s.cmds := rfl
@[simp] theorem withWbuf_taken (s : State) (b : List U8) : (s.withWbuf b).taken = s.taken := rfl

/-! ### `withHist` -/

@[simp] theorem withHist_params (s : State) (h : Hist) : (s.withHist h).params = s.params := rfl
@[simp] theorem withHist_rem (s : State) (h : Hist) : (s.withHist h).rem = s.rem := rfl
@[simp] theorem withHist_scanSum (s : State) (h : Hist) : (s.withHist h).scanSum = s.scanSum := rfl
@[simp] theorem withHist_scanPos (s : State) (h : Hist) : (s.withHist h).scanPos = s.scanPos := rfl
@[simp] theorem withHist_err (s : State) (h : Hist) : (s.withHist h).err = s.err := rfl
@[simp] theorem withHist_cause (s : State) (h : Hist) : (s.withHist h).cause = s.cause := rfl
@[simp] theorem withHist_wbuf (s : State) (h : Hist) : (s.withHist h).wbuf = s.wbuf := rfl
@[simp] theorem withHist_hist (s : State) (h : Hist) : (s.withHist h).hist = h := rfl
@[simp] theorem withHist_out (s : State) (h : Hist) : (s.withHist h).out = s.out := rfl
@[simp] theorem withHist_cmds (s : State) (h : Hist) : (s.withHist h).cmds = s.cmds := rfl
@[simp] theorem withHist_taken (s : State) (h : Hist) : (s.withHist h).taken = s.taken := rfl

/-! ### `withOut` -/

@[simp] theorem withOut_params (s : State) (rs : List Record) : (s.withOut rs).params = s.params := rfl
@[simp] theorem withOut_rem (s : State) (rs : List Record) : (s.withOut rs).rem = s.rem := rfl
@[simp] theorem withOut_scanSum (s : State) (rs : List Record) : (s.withOut rs).scanSum = s.scanSum := rfl
@[simp] theorem withOut_scanPos (s : State) (rs : List Record) : (s.withOut rs).scanPos = s.scanPos := rfl
@[simp] theorem withOut_err (s : State) (rs : List Record) : (s.withOut rs).err = s.err := rfl
@[simp] theorem withOut_cause (s : State) (rs : List Record) : (s.withOut rs).cause = s.cause := rfl
@[simp] theorem withOut_wbuf (s : State) (rs : List Record) : (s.withOut rs).wbuf = s.wbuf := rfl
@[simp] theorem withOut_hist (s : State) (rs : List Record) : (s.withOut rs).hist = s.hist := rfl
@[simp] theorem withOut_out (s : State) (rs : List Record) : (s.withOut rs).out = rs := rfl
@[simp] theorem withOut_cmds (s : State) (rs : List Record) : (s.withOut rs).cmds = s.cmds := rfl
@[simp] theorem withOut_taken (s : State) (rs : List Record) : (s.withOut rs).taken = s.taken := rfl

/-! ### `withCmds` -/

@[simp] theorem withCmds_params (s : State) (cs : List U72) : (s.withCmds cs).params = s.params := rfl
@[simp] theorem withCmds_rem (s : State) (cs : List U72) : (s.withCmds cs).rem = s.rem := rfl
@[simp] theorem withCmds_scanSum (s : State) (cs : List U72) : (s.withCmds cs).scanSum = s.scanSum := rfl
@[simp] theorem withCmds_scanPos (s : State) (cs : List U72) : (s.withCmds cs).scanPos = s.scanPos := rfl
@[simp] theorem withCmds_err (s : State) (cs : List U72) : (s.withCmds cs).err = s.err := rfl
@[simp] theorem withCmds_cause (s : State) (cs : List U72) : (s.withCmds cs).cause = s.cause := rfl
@[simp] theorem withCmds_wbuf (s : State) (cs : List U72) : (s.withCmds cs).wbuf = s.wbuf := rfl
@[simp] theorem withCmds_hist (s : State) (cs : List U72) : (s.withCmds cs).hist = s.hist := rfl
@[simp] theorem withCmds_out (s : State) (cs : List U72) : (s.withCmds cs).out = s.out := rfl
@[simp] theorem withCmds_cmds (s : State) (cs : List U72) : (s.withCmds cs).cmds = cs := rfl
@[simp] theorem withCmds_taken (s : State) (cs : List U72) : (s.withCmds cs).taken = s.taken := rfl

/-! ### `withTaken` -/

@[simp] theorem withTaken_params (s : State) (n : Nat) : (s.withTaken n).params = s.params := rfl
@[simp] theorem withTaken_rem (s : State) (n : Nat) : (s.withTaken n).rem = s.rem := rfl
@[simp] theorem withTaken_scanSum (s : State) (n : Nat) : (s.withTaken n).scanSum = s.scanSum := rfl
@[simp] theorem withTaken_scanPos (s : State) (n : Nat) : (s.withTaken n).scanPos = s.scanPos := rfl
@[simp] theorem withTaken_err (s : State) (n : Nat) : (s.withTaken n).err = s.err := rfl
@[simp] theorem withTaken_cause (s : State) (n : Nat) : (s.withTaken n).cause = s.cause := rfl
@[simp] theorem withTaken_wbuf (s : State) (n : Nat) : (s.withTaken n).wbuf = s.wbuf := rfl
@[simp] theorem withTaken_hist (s : State) (n : Nat) : (s.withTaken n).hist = s.hist := rfl
@[simp] theorem withTaken_out (s : State) (n : Nat) : (s.withTaken n).out = s.out := rfl
@[simp] theorem withTaken_cmds (s : State) (n : Nat) : (s.withTaken n).cmds = s.cmds := rfl
@[simp] theorem withTaken_taken (s : State) (n : Nat) : (s.withTaken n).taken = n := rfl

/-! ### Reset -/

@[simp] theorem resetOf_params (p : Params) : (resetOf p).params = p := rfl
@[simp] theorem resetOf_rem (p : Params) : (resetOf p).rem = 0#32 := rfl
@[simp] theorem resetOf_scanSum (p : Params) : (resetOf p).scanSum = 0#32 := rfl
@[simp] theorem resetOf_scanPos (p : Params) : (resetOf p).scanPos = 0#32 := rfl
@[simp] theorem resetOf_err (p : Params) : (resetOf p).err = false := rfl
@[simp] theorem resetOf_cause (p : Params) : (resetOf p).cause = 0#4 := rfl
@[simp] theorem resetOf_wbuf (p : Params) : (resetOf p).wbuf = List.replicate p.w 0#8 := rfl
@[simp] theorem resetOf_hist (p : Params) : (resetOf p).hist = [] := rfl
@[simp] theorem resetOf_out (p : Params) : (resetOf p).out = [] := rfl
@[simp] theorem resetOf_cmds (p : Params) : (resetOf p).cmds = [] := rfl
@[simp] theorem resetOf_taken (p : Params) : (resetOf p).taken = 0 := rfl

end Sys2Proof.Machine.State

namespace Sys2Proof.Machine

/-! ### `emit`, `emitAll`, `raise` -/

@[simp] theorem emit_params (r : Record) (s : State) : (emit r s).params = s.params := rfl
@[simp] theorem emit_rem (r : Record) (s : State) : (emit r s).rem = s.rem := rfl
@[simp] theorem emit_scanSum (r : Record) (s : State) : (emit r s).scanSum = s.scanSum := rfl
@[simp] theorem emit_scanPos (r : Record) (s : State) : (emit r s).scanPos = s.scanPos := rfl
@[simp] theorem emit_err (r : Record) (s : State) : (emit r s).err = s.err := rfl
@[simp] theorem emit_cause (r : Record) (s : State) : (emit r s).cause = s.cause := rfl
@[simp] theorem emit_wbuf (r : Record) (s : State) : (emit r s).wbuf = s.wbuf := rfl
@[simp] theorem emit_hist (r : Record) (s : State) : (emit r s).hist = s.hist := rfl
@[simp] theorem emit_out (r : Record) (s : State) : (emit r s).out = s.out ++ [r] := rfl
@[simp] theorem emit_cmds (r : Record) (s : State) : (emit r s).cmds = s.cmds := rfl
@[simp] theorem emit_taken (r : Record) (s : State) : (emit r s).taken = s.taken := rfl

@[simp] theorem emitAll_params (rs : List Record) (s : State) : (emitAll rs s).params = s.params := rfl
@[simp] theorem emitAll_rem (rs : List Record) (s : State) : (emitAll rs s).rem = s.rem := rfl
@[simp] theorem emitAll_scanSum (rs : List Record) (s : State) : (emitAll rs s).scanSum = s.scanSum := rfl
@[simp] theorem emitAll_scanPos (rs : List Record) (s : State) : (emitAll rs s).scanPos = s.scanPos := rfl
@[simp] theorem emitAll_err (rs : List Record) (s : State) : (emitAll rs s).err = s.err := rfl
@[simp] theorem emitAll_cause (rs : List Record) (s : State) : (emitAll rs s).cause = s.cause := rfl
@[simp] theorem emitAll_wbuf (rs : List Record) (s : State) : (emitAll rs s).wbuf = s.wbuf := rfl
@[simp] theorem emitAll_hist (rs : List Record) (s : State) : (emitAll rs s).hist = s.hist := rfl
@[simp] theorem emitAll_out (rs : List Record) (s : State) : (emitAll rs s).out = s.out ++ rs := rfl
@[simp] theorem emitAll_cmds (rs : List Record) (s : State) : (emitAll rs s).cmds = s.cmds := rfl
@[simp] theorem emitAll_taken (rs : List Record) (s : State) : (emitAll rs s).taken = s.taken := rfl

@[simp] theorem raise_params (f : Cause) (op : U8) (s : State) : (raise f op s).params = s.params := rfl
@[simp] theorem raise_rem (f : Cause) (op : U8) (s : State) : (raise f op s).rem = s.rem := rfl
@[simp] theorem raise_scanSum (f : Cause) (op : U8) (s : State) : (raise f op s).scanSum = s.scanSum := rfl
@[simp] theorem raise_scanPos (f : Cause) (op : U8) (s : State) : (raise f op s).scanPos = s.scanPos := rfl
@[simp] theorem raise_err (f : Cause) (op : U8) (s : State) : (raise f op s).err = true := rfl
@[simp] theorem raise_cause (f : Cause) (op : U8) (s : State) : (raise f op s).cause = if s.err then s.cause else f.code := rfl
@[simp] theorem raise_wbuf (f : Cause) (op : U8) (s : State) : (raise f op s).wbuf = s.wbuf := rfl
@[simp] theorem raise_hist (f : Cause) (op : U8) (s : State) : (raise f op s).hist = s.hist := rfl
@[simp] theorem raise_out (f : Cause) (op : U8) (s : State) : (raise f op s).out = s.out ++ [.fault f op] := rfl
@[simp] theorem raise_cmds (f : Cause) (op : U8) (s : State) : (raise f op s).cmds = s.cmds := rfl
@[simp] theorem raise_taken (f : Cause) (op : U8) (s : State) : (raise f op s).taken = s.taken := rfl

/-- Two states with equal fields are equal. -/
theorem State.eq_of_fields {s t : State} (h1 : s.params = t.params) (h2 : s.rem = t.rem) (h3 : s.scanSum = t.scanSum)
    (h4 : s.scanPos = t.scanPos) (h5 : s.err = t.err) (h6 : s.cause = t.cause) (h7 : s.wbuf = t.wbuf)
    (h8 : s.hist = t.hist) (h9 : s.out = t.out) (h10 : s.cmds = t.cmds) (h11 : s.taken = t.taken) : s = t := by
  cases s; cases t; simp_all

end Sys2Proof.Machine
end

