-- ==== Sys2Proof/Laws/Ops.lean ====
section
/-! SUPPORT. What each shared operation can do, said once: `exec`, `issue`, `accept` and `step`, the three cases of
`SCAN_BYTE`, and the small laws of `WBUF`, `SCAN_POS` and the bit step. -/

namespace Sys2Proof.Machine

/-! ### Registers, `WBUF`, `SCAN_POS` -/

/-- Numbers 4 to 255 name no register (rule R22). -/
theorem RegName.ofNumber_eq_none {reg : U8} (h : 4 ≤ reg.toNat) : RegName.ofNumber reg = none := by
  unfold RegName.ofNumber
  repeat rw [if_neg (by rintro rfl; revert h; decide)]

theorem RegName.ofNumber_number (r : RegName) : RegName.ofNumber r.number = some r := by cases r <;> rfl

theorem RegName.number_of_ofNumber {reg : U8} {r : RegName} (h : RegName.ofNumber reg = some r) : reg = r.number := by
  unfold RegName.ofNumber at h
  repeat' split at h
  all_goals simp_all [RegName.number]
  all_goals subst r; rfl

theorem wbufRead_of_getElem? {b : List U8} {slot : Nat} {v : U8} (h : b[slot]? = some v) : wbufRead b slot = v := by
  unfold wbufRead
  rw [List.getD_eq_getElem?_getD, h]
  rfl

@[simp] theorem wbufWrite_length (b : List U8) (slot : Nat) (v : U8) : (wbufWrite b slot v).length = b.length := by
  simp [wbufWrite]

theorem wbufRead_wbufWrite_self {b : List U8} {slot : Nat} (h : slot < b.length) (v : U8) :
    wbufRead (wbufWrite b slot v) slot = v :=
  wbufRead_of_getElem? (by simp [wbufWrite, h])

theorem wbufRead_wbufWrite_ne (b : List U8) {i j : Nat} (h : i ≠ j) (v : U8) :
    wbufRead (wbufWrite b i v) j = wbufRead b j := by
  simp [wbufRead, wbufWrite, List.getD_eq_getElem?_getD, List.getElem?_set_ne h]

theorem slotOf_lt {w : Nat} (h : 0 < w) (n : Nat) : slotOf w n < w := Nat.mod_lt n h

/-- Below the last position, the position does not wrap (rule R25). -/
theorem scanPos_add_one_toNat {p : U32} (h : p ≠ 0xFFFFFFFF#32) :
    (p + 1#32).toNat = p.toNat + 1 ∧ p.toNat + 1 < 2 ^ 32 := by
  have ne : p.toNat ≠ 4294967295 := fun e => h (BitVec.eq_of_toNat_eq e)
  have := p.isLt
  constructor
  · rw [BitVec.toNat_add]
    simp
    omega
  · omega

/-! ### The bit step -/

/-- The bit step is linear over XOR (rule R101). -/
theorem updateBit_xor (a b : U32) (x y : Bool) :
    updateBit (a ^^^ b) (Bool.xor x y) = updateBit a x ^^^ updateBit b y := by
  have swap (p q r : U32) : p ^^^ (q ^^^ r) = q ^^^ (p ^^^ r) := by
    rw [← BitVec.xor_assoc, BitVec.xor_comm p q, BitVec.xor_assoc]
  have cancel (p q : U32) : p ^^^ (p ^^^ q) = q := by
    rw [← BitVec.xor_assoc, BitVec.xor_self, BitVec.zero_xor]
  unfold updateBit
  rw [BitVec.getLsbD_xor, BitVec.ushiftRight_xor_distrib]
  cases a.getLsbD 0 <;> cases b.getLsbD 0 <;> cases x <;> cases y <;>
    simp [BitVec.xor_comm, swap, cancel]

/-! ### `SCAN_BYTE` -/

theorem execScanByte_overflow {s : State} (h : s.scanPos = 0xFFFFFFFF#32) (b0 : U8) :
    execScanByte b0 s = .next (raise .positionOverflow Mnemonic.scanByte.op s) := by
  unfold execScanByte
  rw [if_pos h]

theorem execScanByte_noWindow {s : State} (h : s.scanPos ≠ 0xFFFFFFFF#32) (hw : s.scanPos.toNat + 1 < s.params.w)
    (b0 : U8) : execScanByte b0 s = .next (scanShift b0 s) := by
  unfold execScanByte
  rw [if_neg h, if_neg (by omega)]

theorem execScanByte_window {s : State} (h : s.scanPos ≠ 0xFFFFFFFF#32) (hw : s.params.w ≤ s.scanPos.toNat + 1)
    (b0 : U8) :
    execScanByte b0 s =
      .next (completeWindow (s.scanPos.toNat + 1 - s.params.w) (scanChecksum b0 s) (scanShift b0 s)) := by
  unfold execScanByte
  rw [if_neg h, if_pos hw]

/-! ### `exec`, `issue`, `step` -/

/-- `SCAN_END` clears the scan unit. -/
theorem execScanEnd_eq (s : State) :
    execScanEnd s =
      .next ((((s.withScanSum 0#32).withScanPos 0#32).withWbuf (wbufClear s.params.w)).withHist []) := rfl

/-- Everything a command can do: nothing; a fault; a response; a new `REM`; the two normal cases of `SCAN_BYTE`; the
clearing of the scan unit. -/
theorem exec_cases (i : Instr) (s : State) :
    (i = .nop ∧ exec i s = .next s) ∨
    (∃ f, exec i s = .next (raise f i.mnemonic.op s)) ∨
    (∃ v, (i.mnemonic = .rdreg ∨ i.mnemonic = .tblRead) ∧ exec i s = .next (emit (.rsp v) s)) ∨
    (∃ v, ((∃ val, i = .wrreg 0#8 val) ∨ (batchedData i).isSome = true ∨ ∃ inb outb, i = .rollStep inb outb) ∧
      exec i s = .next (s.withRem v)) ∨
    (∃ b0, i = .scanByte b0 ∧ s.scanPos ≠ 0xFFFFFFFF#32 ∧ s.scanPos.toNat + 1 < s.params.w ∧
      exec i s = .next (scanShift b0 s)) ∨
    (∃ b0, i = .scanByte b0 ∧ s.scanPos ≠ 0xFFFFFFFF#32 ∧ s.params.w ≤ s.scanPos.toNat + 1 ∧
      exec i s = .next (completeWindow (s.scanPos.toNat + 1 - s.params.w) (scanChecksum b0 s) (scanShift b0 s))) ∨
    (i = .scanEnd ∧ exec i s =
      .next ((((s.withScanSum 0#32).withScanPos 0#32).withWbuf (wbufClear s.params.w)).withHist [])) := by
  cases i with
  | nop => exact .inl ⟨rfl, rfl⟩
  | rdreg reg =>
    simp only [exec, execRdreg]
    split
    · exact .inr (.inl ⟨_, rfl⟩)
    · exact .inr (.inr (.inl ⟨_, .inl rfl, rfl⟩))
  | wrreg reg val =>
    simp only [exec, execWrreg]
    split
    · exact .inr (.inl ⟨_, rfl⟩)
    · next h =>
      obtain rfl : reg = 0#8 := RegName.number_of_ofNumber h
      exact .inr (.inr (.inr (.inl ⟨_, .inl ⟨_, rfl⟩, rfl⟩)))
    all_goals exact .inr (.inl ⟨_, rfl⟩)
  | tblRead idx =>
    simp only [exec, execTblRead]
    split
    · exact .inr (.inr (.inl ⟨_, .inr rfl, rfl⟩))
    · exact .inr (.inl ⟨_, rfl⟩)
  | crcByte b0 => exact .inr (.inr (.inr (.inl ⟨_, .inr (.inl rfl), rfl⟩)))
  | crcSlice4 b0 b1 b2 b3 =>
    simp only [exec, execCrcSlice4]
    split
    · exact .inr (.inl ⟨_, rfl⟩)
    · exact .inr (.inr (.inr (.inl ⟨_, .inr (.inl rfl), rfl⟩)))
  | crcSlice8 b0 b1 b2 b3 b4 b5 b6 b7 =>
    simp only [exec, execCrcSlice8]
    split
    · exact .inr (.inl ⟨_, rfl⟩)
    · exact .inr (.inr (.inr (.inl ⟨_, .inr (.inl rfl), rfl⟩)))
  | rollStep inb outb => exact .inr (.inr (.inr (.inl ⟨_, .inr (.inr ⟨_, _, rfl⟩), rfl⟩)))
  | scanByte b0 =>
    by_cases h : s.scanPos = 0xFFFFFFFF#32
    · exact .inr (.inl ⟨_, execScanByte_overflow h b0⟩)
    · rcases Nat.lt_or_ge (s.scanPos.toNat + 1) s.params.w with hw | hw
      · exact .inr (.inr (.inr (.inr (.inl ⟨b0, rfl, h, hw, execScanByte_noWindow h hw b0⟩))))
      · exact .inr (.inr (.inr (.inr (.inr (.inl ⟨b0, rfl, h, hw, execScanByte_window h hw b0⟩)))))
  | scanEnd => exact .inr (.inr (.inr (.inr (.inr (.inr ⟨rfl, execScanEnd_eq s⟩)))))

/-- Running a word is running its command, or `IllegalCommand` where it selects no row. -/
theorem issue_cases (c : U72) (s : State) :
    (∃ i, decode s.params.sliceMax c = .ok i ∧ issue c s = exec i s) ∨
    ((∀ m, ¬ Mnemonic.Selects s.params.sliceMax m c) ∧ issue c s = .next (raise .illegalCommand (opOf c) s)) := by
  unfold issue
  cases h : decode s.params.sliceMax c with
  | ok i => exact .inl ⟨i, rfl, rfl⟩
  | error e => exact .inr ⟨not_selects_of_decode_error h, rfl⟩

theorem accept_eq_none {s : State} (h : s.cmds = []) : accept s = none := by
  unfold accept
  rw [h]

theorem accept_eq_some {s : State} {c : U72} {rest : List U72} (h : s.cmds = c :: rest) :
    accept s = some (c, s.withCmds rest) := by
  unfold accept
  rw [h]

/-- A step waits, or runs the first waiting word with that word consumed. -/
theorem step_cases {s t : State} (h : step s = .next t) :
    (s.cmds = [] ∧ t = s) ∨ ∃ c rest, s.cmds = c :: rest ∧ issue c (s.withCmds rest) = .next t := by
  unfold step at h
  cases hc : s.cmds with
  | nil => rw [accept_eq_none hc] at h; exact .inl ⟨rfl, (by simpa using h.symm)⟩
  | cons c rest => rw [accept_eq_some hc] at h; exact .inr ⟨c, rest, rfl, h⟩

end Sys2Proof.Machine
end

