-- ==== Sys2Proof/Laws/PerInstr.lean ====
section
/-! SUPPORT. What holds of every command as syntax, one lemma per constructor: its word carries its row's `OP` and has
every reserved bit of its row's format 0 (rules R71, R77, R79). -/

namespace Sys2Proof.Laws.EncodeFillsItsRow

/-- The word of a command has the `OP` of its row and no reserved bit set. -/
def Statement (i : Instr) : Prop :=
  opOf (encode i) = i.mnemonic.op ∧ argOf (encode i) &&& i.mnemonic.format.reserved = 0#64

theorem nop : Statement .nop := ⟨by decide, by decide⟩

theorem scanEnd : Statement .scanEnd := ⟨by decide, by decide⟩

theorem rdreg (reg : U8) : Statement (.rdreg reg) := by
  constructor <;> apply BitVec.eq_of_getLsbD_eq <;> intro j hj <;>
    simp only [encode, Instr.mnemonic, Mnemonic.op, Mnemonic.format, Format.reserved, opOf, argOf, BitVec.getLsbD_and,
      BitVec.getLsbD_extractLsb', BitVec.getLsbD_append, BitVec.getLsbD_zero] <;>
    interval_cases j <;> simp

theorem wrreg (reg : U8) (val : U32) : Statement (.wrreg reg val) := by
  constructor <;> apply BitVec.eq_of_getLsbD_eq <;> intro j hj <;>
    simp only [encode, Instr.mnemonic, Mnemonic.op, Mnemonic.format, Format.reserved, opOf, argOf, BitVec.getLsbD_and,
      BitVec.getLsbD_extractLsb', BitVec.getLsbD_append, BitVec.getLsbD_zero] <;>
    interval_cases j <;> simp

theorem tblRead (idx : U12) : Statement (.tblRead idx) := by
  constructor <;> apply BitVec.eq_of_getLsbD_eq <;> intro j hj <;>
    simp only [encode, Instr.mnemonic, Mnemonic.op, Mnemonic.format, Format.reserved, opOf, argOf, BitVec.getLsbD_and,
      BitVec.getLsbD_extractLsb', BitVec.getLsbD_append, BitVec.getLsbD_zero] <;>
    interval_cases j <;> simp

theorem crcByte (b0 : U8) : Statement (.crcByte b0) := by
  constructor <;> apply BitVec.eq_of_getLsbD_eq <;> intro j hj <;>
    simp only [encode, Instr.mnemonic, Mnemonic.op, Mnemonic.format, Format.reserved, opOf, argOf, BitVec.getLsbD_and,
      BitVec.getLsbD_extractLsb', BitVec.getLsbD_append, BitVec.getLsbD_zero] <;>
    interval_cases j <;> simp

theorem crcSlice4 (b0 b1 b2 b3 : U8) : Statement (.crcSlice4 b0 b1 b2 b3) := by
  constructor <;> apply BitVec.eq_of_getLsbD_eq <;> intro j hj <;>
    simp only [encode, Instr.mnemonic, Mnemonic.op, Mnemonic.format, Format.reserved, opOf, argOf, BitVec.getLsbD_and,
      BitVec.getLsbD_extractLsb', BitVec.getLsbD_append, BitVec.getLsbD_zero] <;>
    interval_cases j <;> simp

theorem crcSlice8 (b0 b1 b2 b3 b4 b5 b6 b7 : U8) : Statement (.crcSlice8 b0 b1 b2 b3 b4 b5 b6 b7) := by
  constructor <;> apply BitVec.eq_of_getLsbD_eq <;> intro j hj <;>
    simp only [encode, Instr.mnemonic, Mnemonic.op, Mnemonic.format, Format.reserved, opOf, argOf, BitVec.getLsbD_and,
      BitVec.getLsbD_extractLsb', BitVec.getLsbD_append, BitVec.getLsbD_zero] <;>
    interval_cases j <;> simp

theorem rollStep (inb outb : U8) : Statement (.rollStep inb outb) := by
  constructor <;> apply BitVec.eq_of_getLsbD_eq <;> intro j hj <;>
    simp only [encode, Instr.mnemonic, Mnemonic.op, Mnemonic.format, Format.reserved, opOf, argOf, BitVec.getLsbD_and,
      BitVec.getLsbD_extractLsb', BitVec.getLsbD_append, BitVec.getLsbD_zero] <;>
    interval_cases j <;> simp

theorem scanByte (b0 : U8) : Statement (.scanByte b0) := by
  constructor <;> apply BitVec.eq_of_getLsbD_eq <;> intro j hj <;>
    simp only [encode, Instr.mnemonic, Mnemonic.op, Mnemonic.format, Format.reserved, opOf, argOf, BitVec.getLsbD_and,
      BitVec.getLsbD_extractLsb', BitVec.getLsbD_append, BitVec.getLsbD_zero] <;>
    interval_cases j <;> simp

end Sys2Proof.Laws.EncodeFillsItsRow
end

