-- ==== Sys2Proof/Tests/Slice0.lean ====
section
/-! SUPPORT. Tests and witnesses. Expected values are taken from the vectors of `spec/95_test_vectors.md` (named at each
test) and the rules' own examples; no value was taken from the model. `witness_…` theorems show that the hypotheses of
the obligation of that name can be met, clause by clause. -/

namespace Sys2Proof.Machine.Tests

/-! ### Small states and helpers -/

/-- The next state of an outcome. -/
def nextOf : Host.Outcome State Fault Refusal → Option State
  | .next t => some t
  | .fault _ => none
  | .refused _ => none

/-- The state after one step on a word offered in front of all others. -/
def stepOn (c : U72) (s : State) : Option State := nextOf (step (s.pushCmd c))

/-- An instance with small parameters. -/
def small (w : Nat) (sm : SliceMax) (d : Nat) (hw : 0 < w := by decide) (hd : 0 < d := by decide) : Params :=
  { w := w, sliceMax := sm, histDepth := d, w_pos := hw, histDepth_pos := hd }

/-- The reset state with a remainder. -/
def withRemainder (v : U32) : State := State.reset.withRem v

/-- `W = 1` after `SCAN_BYTE 'a'` (vector M13 and the note on it: `SCAN_SUM = 0x3AB551CE`). -/
def scannedA (d : Nat) (hd : 0 < d := by decide) : State :=
  ((((State.resetOf (small 1 .eight d (by decide) hd)).withWbuf [0x61#8]).withScanSum 0x3AB551CE#32).withScanPos
    1#32).withHist [(0, 0x3AB551CE#32)]

/-- `W = 2` after `SCAN_BYTE 'a'`: no window yet (`SCAN_SUM = crc(0, "a") = 0x3AB551CE`, vector X7). -/
def filledA : State :=
  (((State.resetOf (small 2 .eight 1)).withWbuf [0x61#8, 0x00#8]).withScanSum 0x3AB551CE#32).withScanPos 1#32

/-- The last position of a stream (vector M14). -/
def atLastPos : State := (State.reset.withScanPos 0xFFFFFFFF#32).withScanSum 0x00001234#32

/-! ### `WellFormed`: ill-formed commands are refused -/

theorem test_wellFormed_slice4_needs_4 :
    Instr.wellFormed .one (.crcSlice4 1#8 2#8 3#8 4#8) = false ∧
    Instr.wellFormed .four (.crcSlice4 1#8 2#8 3#8 4#8) = true := by decide

theorem test_wellFormed_slice8_needs_8 :
    Instr.wellFormed .one (.crcSlice8 1#8 2#8 3#8 4#8 5#8 6#8 7#8 8#8) = false ∧
    Instr.wellFormed .four (.crcSlice8 1#8 2#8 3#8 4#8 5#8 6#8 7#8 8#8) = false ∧
    Instr.wellFormed .eight (.crcSlice8 1#8 2#8 3#8 4#8 5#8 6#8 7#8 8#8) = true := by decide

/-! ### Decoding: one word of each row, written out from rules R71, R77 and R82 -/

/-- Vector Y1. -/
theorem test_decode_nop : decodeTableWord 72 0x000000000000000000 = some .nop := by decide
/-- Vector E11. -/
theorem test_decode_rdreg : decodeTableWord 72 0x01000000FF00000000 = some (.rdreg 255#8) := by decide
/-- Vector E10. -/
theorem test_decode_wrreg : decodeTableWord 72 0x0200000003DEADBEEF = some (.wrreg 3#8 0xDEADBEEF#32) := by decide
/-- Vector E12. -/
theorem test_decode_tblRead : decodeTableWord 72 0x0300000000000008FF = some (.tblRead 2303#12) := by decide
/-- Vector E1. -/
theorem test_decode_crcByte : decodeTableWord 72 0x100000000000000031 = some (.crcByte 0x31#8) := by decide
/-- Vector E3. -/
theorem test_decode_crcSlice4 :
    decodeTableWord 72 0x110000000034333231 = some (.crcSlice4 0x31#8 0x32#8 0x33#8 0x34#8) := by decide
/-- Vector E4. -/
theorem test_decode_crcSlice8 :
    decodeTableWord 72 0x123837363534333231 =
      some (.crcSlice8 0x31#8 0x32#8 0x33#8 0x34#8 0x35#8 0x36#8 0x37#8 0x38#8) := by decide
/-- Vector E6. -/
theorem test_decode_rollStep : decodeTableWord 72 0x200000000000004142 = some (.rollStep 0x42#8 0x41#8) := by decide
/-- Vector E7. -/
theorem test_decode_scanByte : decodeTableWord 72 0x300000000000000041 = some (.scanByte 0x41#8) := by decide
/-- Vector M15. -/
theorem test_decode_scanEnd : decodeTableWord 72 0x310000000000000000 = some .scanEnd := by decide
/-- Vectors E2, E8, E9, M16. -/
theorem test_decode_illegal :
    [0x100000000000000131, 0x040000000000000000, 0x130000000000000000, 0x310000000000000001].map (decodeTableWord 72) =
      [none, none, none, none] := by decide
/-- Vectors B45, B46: absent on a narrower instance. -/
theorem test_decode_absent :
    decode .four 0x120807060504030201#72 = .error .absentCommand ∧
    decode .one 0x110000000004030201#72 = .error .absentCommand := by decide

/-! ### The commands, at most two tests each -/

/-- Vector Y1. -/
theorem test_nop : (stepOn 0x000000000000000000#72 State.reset) = some State.reset := by decide
/-- Vector Y4. -/
theorem test_rdreg_rem :
    (stepOn 0x010000000000000000#72 (withRemainder 0x2DFD2D88#32)).map State.outWords =
      some [0x01000000002DFD2D88#72] := by decide
/-- Vector Y8. -/
theorem test_rdreg_badRegister :
    (stepOn 0x010000000400000000#72 State.reset).map (fun t => (t.outWords, t.statusWord)) =
      some ([0xFF0000000000000102#72], 0x00000022#32) := by decide
/-- Vector Y3. -/
theorem test_wrreg_rem :
    (stepOn 0x0200000000FFFFFFFF#72 State.reset).map (fun t => (t.rem, t.out)) = some (0xFFFFFFFF#32, []) := by decide
/-- Vector Y7. -/
theorem test_wrreg_readOnly :
    (stepOn 0x020000000200000005#72 State.reset).map (fun t => (t.outWords, t.statusWord, t.scanPos)) =
      some ([0xFF0000000000000203#72], 0x00000032#32, 0#32) := by decide
/-- Vector T32. -/
theorem test_tblRead_group :
    (stepOn 0x030000000000000101#72 State.reset).map State.outWords = some [0x0100000000191B3141#72] := by
  decide +kernel
/-- Vector T37. -/
theorem test_tblRead_range :
    (stepOn 0x030000000000000900#72 State.reset).map (fun t => (t.outWords, t.statusWord)) =
      some ([0xFF0000000000000304#72], 0x00000042#32) := by decide
/-- Vector B6. -/
theorem test_crcByte :
    (stepOn 0x10000000000000009A#72 (withRemainder 0x12345678#32)).map State.rem = some 0x4E16B702#32 := by
  decide +kernel
/-- Vector B7. -/
theorem test_crcSlice4 :
    (stepOn 0x110000000034333231#72 State.reset).map State.rem = some 0xBAA73FBF#32 := by decide +kernel
/-- Vector B46: `SLICE_MAX = 1`. -/
theorem test_crcSlice4_absent :
    (stepOn 0x110000000004030201#72 (State.resetOf (small 16 .one 32))).map (fun t => (t.outWords, t.rem)) =
      some ([0xFF0000000000001101#72], 0#32) := by decide
/-- Vector B16. -/
theorem test_crcSlice8 :
    (stepOn 0x120706050403020100#72 (withRemainder 0x12345678#32)).map State.rem = some 0x57F36007#32 := by
  decide +kernel
/-- Vector B45: `SLICE_MAX = 4`. -/
theorem test_crcSlice8_absent :
    (stepOn 0x120807060504030201#72 (State.resetOf (small 16 .four 32))).map (fun t => (t.outWords, t.rem)) =
      some ([0xFF0000000000001201#72], 0#32) := by decide
/-- Vector S8. -/
theorem test_rollStep :
    (stepOn 0x20000000000000BC9A#72 (withRemainder 0x12345678#32)).map State.rem = some 0x5870BF3C#32 := by
  decide +kernel
/-- Vector S4: not the source's printed order (conflict C1). -/
theorem test_rollStep_order :
    (stepOn 0x200000000000004142#72 (withRemainder 0x57BF1C5E#32)).map State.rem = some 0xCEB64DE4#32 := by
  decide +kernel
/-- Rules R183, R187, R188 on vector M13's instance: 'a' again is an equal window. -/
theorem test_scanByte_match :
    (stepOn 0x300000000000000061#72 (scannedA 1)).map (fun t => (t.outWords, t.scanPos, t.scanSum, t.hist)) =
      some ([0x020000000100000000#72], 2#32, 0x3AB551CE#32, [(1, 0x3AB551CE#32)]) := by decide +kernel
/-- Vector M14. -/
theorem test_scanByte_overflow :
    (stepOn 0x300000000000000041#72 atLastPos).map (fun t => (t.outWords, t.scanPos, t.scanSum, t.statusWord)) =
      some ([0xFF0000000000003005#72], 0xFFFFFFFF#32, 0x00001234#32, 0x00000053#32) := by decide
/-- Rule R195. -/
theorem test_scanEnd :
    stepOn 0x310000000000000000#72 (scannedA 1) = some (State.resetOf (small 1 .eight 1)) := by decide
/-- Vector F1. -/
theorem test_illegal :
    (stepOn 0x7F0000000000001234#72 State.reset).map (fun t => (t.outWords, t.statusWord)) =
      some ([0xFF0000000000007F01#72], 0x00000012#32) := by decide
/-- The same word as the first instruction after reset, through `withFetchWord`. -/
theorem test_withFetchWord :
    (nextOf (step (State.reset.withFetchWord 72 0x0200000000FFFFFFFF))).map State.rem = some 0xFFFFFFFF#32 := by decide
/-- With no word waiting, nothing happens. -/
theorem test_step_waits : nextOf (step State.reset) = some State.reset := by decide

/-! ### Tables, ports, assembler -/

/-- Vectors T22, T24, T27: table words. -/
theorem test_tables :
    [groupRead 16 0 7#8, groupRead 16 4 0x80#8, rollRead 4 0x61#8, rollRead 1 0x61#8] =
      [0x9E6495A3#32, 0xB1E6B092#32, 0x839A9066#32, 0x3AB551CE#32] := by decide +kernel

/-- Rule R14. -/
theorem test_le32 : le32 0x31#8 0x32#8 0x33#8 0x34#8 = 0x34333231#32 := by decide

/-- Rule R73: a word the engine never produces is no record. -/
theorem test_record_none :
    [0x000000000000000000#72, 0x010000000100000000#72, 0xFF0000000000000006#72, 0xFF0000000000000000#72].map
      Record.ofWord = [none, none, none, none] := by decide

/-- Rules R272, R273: the host takes records in order. -/
theorem test_ports :
    ((emit (.rsp 2#32) (emit (.rsp 1#32) State.reset)).take.received,
      (emit (.rsp 2#32) (emit (.rsp 1#32) State.reset)).take.pendingRecord) =
      ([Record.rsp 1#32], some (Record.rsp 2#32)) := by decide

/-- Rule R82: comments, names, literals, numbers. -/
theorem test_assembler :
    [assembleLine Params.reference "CRC_SLICE4 '1','2','3','4' ; data".toList,
      assembleLine Params.reference "WRREG REM, 0x12345678".toList,
      assembleLine Params.reference "RDREG x7".toList,
      assembleLine Params.reference "TBL_READ 4096".toList] =
      [some [.crcSlice4 0x31#8 0x32#8 0x33#8 0x34#8], some [.wrreg 0#8 0x12345678#32], some [.rdreg 7#8], none] := by
  decide

/-- Rule R82: a command word as text. -/
theorem test_wordText : wordText (encode (.rollStep 0x42#8 0x41#8)) = "0x20_0000000000004142".toList := by decide

/-- Vector X7. -/
theorem test_crc32_empty :
    wordsOf (crc32Commands .eight 0x12345678#32 []) = [0x020000000012345678#72, 0x010000000000000000#72] := by decide

/-! ### Scan states that a stream explains -/

/-- `scannedA` is the state the stream "a" leads to on a `W = 1` instance. -/
theorem scannedA_rel (d : Nat) (hd : 0 < d) : ScanRel [0x61#8] (scannedA d hd) where
  pos := rfl
  sum := by show 0x3AB551CE#32 = crc 0#32 [0x61#8]; decide
  bufLength := rfl
  buf := by
    intro j _ hj
    obtain rfl : j = 0 := by simpa using hj
    rfl
  bufClear := by
    intro k hk hw
    have hk : 1 ≤ k := hk
    have hw : k < 1 := hw
    omega
  histWf := by show Hist.Wf [(0, 0x3AB551CE#32)]; decide
  hist := by
    intro a
    show Hist.lookup [(0, 0x3AB551CE#32)] a = if 1 - d ≤ a ∧ a < 1 then some (windowSum 1 [0x61#8] a) else none
    by_cases h : a = 0
    · subst h
      rw [if_pos (by omega), show windowSum 1 [0x61#8] 0 = 0x3AB551CE#32 by decide]
      rfl
    · rw [if_neg (by omega), Hist.lookup_cons, if_neg (fun e => h e.symm), Hist.lookup_nil]

/-- `filledA` is the state the stream "a" leads to on a `W = 2` instance. -/
theorem filledA_rel : ScanRel [0x61#8] filledA where
  pos := rfl
  sum := by show 0x3AB551CE#32 = crc 0#32 [0x61#8]; decide
  bufLength := rfl
  buf := by
    intro j _ hj
    obtain rfl : j = 0 := by simpa using hj
    rfl
  bufClear := by
    intro k hk hw
    have hk : 1 ≤ k := hk
    have hw : k < 2 := hw
    obtain rfl : k = 1 := by omega
    rfl
  histWf := by show Hist.Wf []; decide
  hist := by
    intro a
    show none = if 0 - 1 ≤ a ∧ a < 0 then some (windowSum 2 [0x61#8] a) else none
    rw [if_neg (by omega)]

/-- A cleared scan unit (an instance with `W = 1` and a remainder) is explained by no bytes. -/
theorem cleared_rel : ScanRel [] ((State.resetOf (small 1 .eight 1)).withRem 5#32) where
  pos := rfl
  sum := by show 0#32 = crc 0#32 []; decide
  bufLength := rfl
  buf := by intro j _ hj; simp at hj
  bufClear := by
    intro k _ hw
    have hw : k < 1 := hw
    obtain rfl : k = 0 := by omega
    rfl
  histWf := by show Hist.Wf []; decide
  hist := by
    intro a
    show none = if 0 - 1 ≤ a ∧ a < 0 then some (windowSum 1 [] a) else none
    rw [if_neg (by omega)]

/-- `scannedA` with a fault and a match already reported meets the invariant. -/
theorem scannedA_inv :
    ((raise .illegalCommand 0x7F#8 (scannedA 1)).withCmds [0x300000000000000061#72]).Inv where
  scan := ⟨[0x61#8], ⟨(scannedA_rel 1 (by decide)).pos, (scannedA_rel 1 (by decide)).sum, rfl,
    (scannedA_rel 1 (by decide)).buf, (scannedA_rel 1 (by decide)).bufClear, (scannedA_rel 1 (by decide)).histWf,
    (scannedA_rel 1 (by decide)).hist⟩⟩
  fault := by unfold State.FaultInv; decide
  matched := by
    intro a b h
    have h : Record.matchPair a b ∈ [Record.fault .illegalCommand 0x7F#8] := h
    simp at h
  port := by unfold State.PortInv; decide

/-! ### Witnesses: the hypotheses of the obligations can be met -/

theorem witness_CrcIsLinearOverSequences : [0x31#8, 0x32#8].length = [0x33#8, 0x34#8].length := by decide

theorem witness_TableSpaceIsTheGeneratorsImage : 1 ≤ 1 ∧ 1 ≤ 16 := by decide

theorem witness_FlatSliceTableFollowsItsRecurrence :
    256 * (7 : Fin 8).val + (255#8).toNat < 2304 ∧ (256 < 2304 ∧ 256 ≤ 256 ∧ 256 ≤ 2047) ∧
    (2047 < 2304 ∧ 256 ≤ 2047 ∧ 2047 ≤ 2047) := by decide

theorem witness_RollingTableAppendsOneZeroByteLessThanTheWindow : 2048 + (255#8).toNat < 2304 ∧ 1 ≤ 1 := by decide

theorem witness_TablesAreLinearInTheirIndex :
    (1 ≤ 1 ∧ (0 : Fin 8).val = 1 - 1) ∧ 1 ≤ 8 ∧ (7 : Fin 8).val = 8 - 1 := by decide

theorem witness_DecodeOfEncodeIsTheCommand :
    Instr.wellFormed .eight (.crcSlice8 1#8 2#8 3#8 4#8 5#8 6#8 7#8 8#8) = true ∧
    Instr.wellFormed .four (.crcSlice4 1#8 2#8 3#8 4#8) = true ∧ Instr.wellFormed .one (.rdreg 255#8) = true := by decide

theorem witness_EncodeOfDecodeIsTheWord :
    decode .one 0x200000000000004142#72 = .ok (.rollStep 0x42#8 0x41#8) := by decide

theorem witness_EveryWordMatchesOneRowOrIsIllegal (s : State) : issue (encode .nop) s = .next s := by
  obtain ⟨i, hd, h⟩ | ⟨h, _⟩ := issue_cases (encode .nop) s
  · obtain rfl : i = .nop := by
      revert hd
      cases s.params.sliceMax <;> intro hd <;> simpa using hd.symm.trans (show _ = Except.ok Instr.nop by decide)
    exact h
  · exact absurd ((Mnemonic.selects_iff s.params.sliceMax .nop _).mpr
      ⟨by cases s.params.sliceMax <;> decide, by decide, by decide⟩) (h .nop)

theorem witness_WordsThatMatchNoRowRaiseIllegalCommand :
    (State.reset.pushCmd 0x040000000000000000#72).cmds = [0x040000000000000000#72] ∧
    (∀ m, ¬ Mnemonic.Selects .eight m 0x040000000000000000#72) ∧
    (∀ m : Mnemonic, opOf 0x040000000000000000#72 ≠ m.op) ∧
    (opOf 0x120000000000000000#72 = 0x12#8 ∧ SliceMax.four.width < 8) ∧
    (opOf 0x110000000000000000#72 = 0x11#8 ∧ SliceMax.one.width = 1) ∧
    (opOf 0x100000000000000131#72 = Mnemonic.crcByte.op ∧
      argOf 0x100000000000000131#72 &&& Mnemonic.crcByte.format.reserved ≠ 0#64) ∧
    (State.reset.pushCmd 0x100000000000000131#72).cmds = [0x100000000000000131#72] := by
  refine ⟨rfl, ?_, ?_, by decide, by decide, by decide, rfl⟩
  · intro m
    unfold Mnemonic.Selects
    cases m <;> decide
  · intro m
    cases m <;> decide

theorem witness_StepRunsTheDecodedCommand :
    (State.reset.pushCmd 0x100000000000000031#72).cmds = [0x100000000000000031#72] ∧
    decode State.reset.params.sliceMax 0x100000000000000031#72 = .ok (.crcByte 0x31#8) ∧ State.reset.cmds = [] := by
  decide

theorem witness_StepRunsTheCommandOfItsWord :
    (State.reset.pushCmd (encode (.wrreg 2#8 5#32))).cmds = encode (.wrreg 2#8 5#32) :: [] := by decide

theorem witness_WaitingWordsRunInArrivalOrder :
    (((State.reset.offer 0x100000000000000031#72).offer 0x010000000000000000#72).offer 0x040000000000000000#72).cmds =
      [0x100000000000000031#72, 0x010000000000000000#72] ++ [0x040000000000000000#72] := by decide

theorem witness_NopChangesNothing :
    (opOf 0x000000000000000000#72 = 0x00#8 ∧ opOf 0x000000000000000001#72 = 0x00#8) ∧
    (State.reset.pushCmd 0x000000000000000000#72).cmds = [0x000000000000000000#72] := by decide

theorem witness_RdregEmitsTheRegister :
    (4 ≤ (4#8).toNat ∧ 4 ≤ (255#8).toNat) ∧ opOf 0x010000000400000000#72 = 0x01#8 ∧
    (ScanRel [0x61#8] filledA ∧ [0x61#8].length < filledA.params.w) ∧
    (filledA.err = false ∧ filledA.scanPos.toNat < filledA.params.w) ∧
    ((withRemainder 0x2DFD2D88#32).pushCmd 0x010000000000000000#72).cmds = [0x010000000000000000#72] ∧
    ((withRemainder 0x2DFD2D88#32).pushCmd 0x010000000000000000#72).rem = 0x2DFD2D88#32 :=
  ⟨by decide, by decide, ⟨filledA_rel, by decide⟩, by decide, by decide, by decide⟩

theorem witness_WrregWritesOnlyRem :
    (4 ≤ (4#8).toNat ∧ 4 ≤ (255#8).toNat) ∧ (1 ≤ (1#8).toNat ∧ (1#8).toNat ≤ 3) ∧ (1 ≤ (3#8).toNat ∧ (3#8).toNat ≤ 3) ∧
    opOf 0x020000010700000000#72 = 0x02#8 ∧
    (State.reset.pushCmd 0x0200000000FFFFFFFF#72).cmds = [0x0200000000FFFFFFFF#72] ∧
    (State.reset.pushCmd 0x020000000200000005#72).cmds = [0x020000000200000005#72] := by decide

theorem witness_TblReadEmitsTheTableWord :
    ((0#12).toNat < 2048 ∧ (2047#12).toNat < 2048) ∧ (2048 ≤ (2048#12).toNat ∧ (2048#12).toNat < 2304) ∧
    (2048 ≤ (2303#12).toNat ∧ (2303#12).toNat < 2304) ∧ (2304 ≤ (2304#12).toNat ∧ 2304 ≤ (4095#12).toNat) ∧
    opOf 0x030000000000001000#72 = 0x03#8 ∧ State.reset.params.w = 16 ∧
    (State.reset.pushCmd 0x030000000000000001#72).cmds = [0x030000000000000001#72] := by decide

theorem witness_ReadsAreIdempotentAndTablesNeverChange :
    (stepOn 0x100000000000000000#72 State.reset).isSome = true ∧ (3#8).toNat ≤ 3 ∧ (2303#12).toNat < 2304 := by
  decide +kernel

theorem witness_BatchedCommandsComputeTheByteLoop :
    4 ≤ (State.resetOf (small 16 .four 32)).params.sliceMax.width ∧ State.reset.params.sliceMax.width = 8 ∧
    Splits State.reset.params.sliceMax [1#8, 2#8, 3#8, 4#8, 5#8] [.crcSlice4 1#8 2#8 3#8 4#8, .crcByte 5#8] :=
  ⟨by decide, by decide,
    .cons (.crcSlice4 1#8 2#8 3#8 4#8) [1#8, 2#8, 3#8, 4#8] [5#8] _ (by decide) rfl
      (.cons (.crcByte 5#8) [5#8] [] _ (by decide) rfl .nil)⟩

theorem witness_BatchedDataEqualToTheRemainderCancelsIt :
    4 ≤ (withRemainder 0xDEADBEEF#32).params.sliceMax.width ∧ (withRemainder 0xDEADBEEF#32).params.sliceMax.width = 8 := by
  decide

theorem witness_AbsentSliceCommandsTakeIllegalCommand :
    (State.resetOf (small 16 .one 32)).params.sliceMax.width < 4 ∧
    (State.resetOf (small 16 .four 32)).params.sliceMax.width < 8 := by decide

theorem witness_BatchedComputationDeliversTheCrc :
    SliceMax.eight.width ≤ State.reset.params.sliceMax.width ∧
    SliceMax.one.width ≤ (State.resetOf (small 16 .one 32)).params.sliceMax.width := by decide

theorem witness_ShortInputsUseNoSliceCommand :
    ([] : List U8).length < SliceMax.one.width ∧ [1#8, 2#8, 3#8].length < SliceMax.four.width ∧
    [1#8, 2#8, 3#8, 4#8, 5#8, 6#8, 7#8].length < SliceMax.eight.width := by decide

/-- `W = 2`: `crc(0, "ab") = 0xDF5A5A92` (program P6); `W = 1`: `crc(0, "a") = 0x3AB551CE`. -/
theorem witness_RollStepEqualsFromScratch :
    ([0x62#8].length + 1 = (filledA.withRem 0xDF5A5A92#32).params.w ∧
      (filledA.withRem 0xDF5A5A92#32).rem = crc 0#32 [0x61#8, 0x62#8]) ∧
    (([] : List U8).length + 1 = ((scannedA 1).withRem 0x3AB551CE#32).params.w ∧
      ((scannedA 1).withRem 0x3AB551CE#32).rem = crc 0#32 [0x61#8]) := by decide

theorem witness_RollStepCancelsThenUpdates :
    opOf 0x200000000000010000#72 = 0x20#8 ∧ State.reset.rem = 0#32 ∧
    (withRemainder 0x57BF1C5E#32).rem = crc 0#32 (List.replicate (withRemainder 0x57BF1C5E#32).params.w 0x41#8) ∧
    ((withRemainder 0xFFFFFFFF#32).params.w = 16 ∧ (withRemainder 0xFFFFFFFF#32).rem = 0xFFFFFFFF#32) ∧
    ((withRemainder 0x57BF1C5E#32).params.w = 16 ∧ (withRemainder 0x57BF1C5E#32).rem = 0x57BF1C5E#32) ∧
    ((withRemainder 0x57BF1C5E#32).pushCmd 0x200000000000004142#72).cmds = [0x200000000000004142#72] := by
  decide +kernel

/-- Vector S10: `crc(0xFFFFFFFF, 0x41^16) = 0x44FBA8F4`. -/
theorem witness_RollStepInThePrintedOrderNeedsOneMoreZeroByte :
    (List.replicate 15 0x41#8).length + 1 = (withRemainder 0x44FBA8F4#32).params.w ∧
    (withRemainder 0x44FBA8F4#32).rem = crc 0xFFFFFFFF#32 (0x41#8 :: List.replicate 15 0x41#8) := by decide +kernel

/-- Fill phase, completing the first window, and slide phase. -/
theorem witness_ScanByteFollowsItsPseudocode :
    (State.reset.scanPos ≠ 0xFFFFFFFF#32 ∧ State.reset.hist.Wf ∧ ¬ State.reset.params.w ≤ State.reset.scanPos.toNat ∧
      State.reset.scanPos.toNat + 1 < State.reset.params.w) ∧
    (filledA.scanPos ≠ 0xFFFFFFFF#32 ∧ filledA.hist.Wf ∧ ¬ filledA.params.w ≤ filledA.scanPos.toNat ∧
      filledA.params.w ≤ filledA.scanPos.toNat + 1) ∧
    (scannedA 1).scanPos ≠ 0xFFFFFFFF#32 ∧ (scannedA 1).hist.Wf ∧
      (scannedA 1).params.w ≤ (scannedA 1).scanPos.toNat ∧
      (scannedA 1).wbuf[(scannedA 1).scanPos.toNat % (scannedA 1).params.w]? = some 0x61#8 := by decide

theorem witness_EveryEqualEarlierWindowIsReportedInRisingOrder :
    (scannedA 1).scanPos ≠ 0xFFFFFFFF#32 ∧ (scannedA 1).params.w ≤ (scannedA 1).scanPos.toNat + 1 ∧
    (scannedA 1).hist.Wf ∧
    ∀ a v, Hist.lookup (scannedA 1).hist a = some v →
      a < (scannedA 1).scanPos.toNat + 1 - (scannedA 1).params.w ∧
        (scannedA 1).scanPos.toNat + 1 - (scannedA 1).params.w ≤ a + (scannedA 1).params.histDepth := by
  refine ⟨by decide, by decide, by decide, ?_⟩
  intro a v h
  have h : Hist.lookup [(0, 0x3AB551CE#32)] a = some v := h
  show a < 1 ∧ 1 ≤ a + 1
  rw [Hist.lookup_cons] at h
  split at h
  · omega
  · simp at h

/-- `HIST_DEPTH = 1`: the entry at 0 is removed when the window at 1 is compared; `HIST_DEPTH = 2^32`: nothing is. -/
theorem witness_HistoryKeepsTheMostRecentWindows :
    (ScanRel [0x61#8] (scannedA 1) ∧ (scannedA 1).scanPos ≠ 0xFFFFFFFF#32 ∧
      (scannedA 1).params.w ≤ [0x61#8].length + 1 ∧
      (scannedA 1).params.histDepth ≤ [0x61#8].length + 1 - (scannedA 1).params.w ∧
      windowSum 1 [0x61#8, 0x61#8] 0 = windowSum 1 [0x61#8, 0x61#8] 1) ∧
    ScanRel [0x61#8] (scannedA 4294967296) ∧ 2 ^ 32 ≤ (scannedA 4294967296).params.histDepth ∧
      Hist.lookup (scannedA 4294967296).hist 0 = some 0x3AB551CE#32 :=
  ⟨⟨scannedA_rel 1 (by decide), by decide, by decide, by decide, by decide⟩, scannedA_rel 4294967296 (by decide),
    by decide, by decide⟩

theorem witness_ScanByteKeepsTheScanInvariant :
    (ScanRel [0x61#8] (scannedA 1) ∧ (scannedA 1).scanPos ≠ 0xFFFFFFFF#32) ∧
    ScanRel [0x61#8] filledA ∧ filledA.scanPos ≠ 0xFFFFFFFF#32 :=
  ⟨⟨scannedA_rel 1 (by decide), by decide⟩, filledA_rel, by decide⟩

theorem witness_PositionOverflowFaultsAndConsumesNothing :
    atLastPos.scanPos = 0xFFFFFFFF#32 ∧ ScanRel [0x61#8] (scannedA 1) ∧
    (Hist.lookup (scannedA 1).hist 0).isSome = true :=
  ⟨by decide, scannedA_rel 1 (by decide), by decide⟩

/-- The windows at 0 and 1 of "aa" with `W = 1` are equal, one apart, and a pair is reported. -/
theorem witness_MatchesAreCompleteAndAreCandidates :
    ScanRel [0x61#8] (scannedA 1) ∧ (scannedA 1).scanPos ≠ 0xFFFFFFFF#32 ∧
    (1 + (scannedA 1).params.w = [0x61#8].length + 1 ∧ 1 - 0 ≤ (scannedA 1).params.histDepth ∧
      ([0x61#8, 0x61#8].drop 0).take (scannedA 1).params.w = ([0x61#8, 0x61#8].drop 1).take (scannedA 1).params.w) ∧
    (nextOf (exec (.scanByte 0x61#8) (scannedA 1))).map State.out = some [Record.matchPair 0#32 1#32] :=
  ⟨scannedA_rel 1 (by decide), by decide, by decide, by decide +kernel⟩

theorem witness_StreamsUpToOneWindowEmitNoMatch :
    ScanRel [] ((State.resetOf (small 1 .eight 1)).withRem 5#32) ∧
    [0x61#8].length ≤ ((State.resetOf (small 1 .eight 1)).withRem 5#32).params.w ∧ [0x61#8].length < 2 ^ 32 :=
  ⟨cleared_rel, by decide, by decide⟩

theorem witness_FalsePositivesNeedWindowsOfFiveBytes :
    ([1#8, 2#8, 3#8, 4#8].length ≤ 4 ∧ crc 0#32 [1#8, 2#8, 3#8, 4#8] = crc 0#32 [1#8, 2#8, 3#8, 4#8]) ∧ 5 ≤ 5 := by
  decide

theorem witness_ScanEndClearsTheScanUnit :
    opOf 0x310000000000000001#72 = 0x31#8 ∧
    (((State.resetOf (small 1 .eight 1)).withRem 5#32).ScanInv ∧
      ((State.resetOf (small 1 .eight 1)).withRem 5#32).scanPos = 0#32) ∧
    ((scannedA 1).pushCmd 0x310000000000000000#72).cmds = [0x310000000000000000#72] ∧
    ((scannedA 1).pushCmd 0x310000000000000000#72).err = false ∧
    ((scannedA 1).pushCmd 0x310000000000000000#72).cause = 0#4 :=
  ⟨by decide, ⟨⟨[], cleared_rel⟩, by decide⟩, by decide, by decide, by decide⟩

theorem witness_ScanAndRemCommandsCommute :
    Instr.wellFormed State.reset.params.sliceMax (.crcSlice8 1#8 2#8 3#8 4#8 5#8 6#8 7#8 8#8) = true ∧
    (batchedData (.crcSlice8 1#8 2#8 3#8 4#8 5#8 6#8 7#8 8#8)).isSome = true ∧
    (∃ b0, Instr.scanByte 0x41#8 = .scanByte b0) :=
  ⟨by decide, by decide, 0x41#8, rfl⟩

theorem witness_EachCommandWritesOnlyItsOwnState :
    (nextOf (exec (.crcByte 1#8) State.reset)).map State.rem = some 0x77073096#32 ∧
    (nextOf (exec (.scanByte 1#8) State.reset)).map State.scanPos = some 1#32 := by decide +kernel

theorem witness_RaisingAFaultRecordsItAndNothingElse :
    (State.reset.pushCmd 0x000000000000000000#72).cmds = [0x000000000000000000#72] := by decide

/-- One word for each outcome of the checks; vectors F1, E11, Y7, T37, M14, B2, Y11. -/
theorem witness_FirstFailedCheckIsTheOnlyEffect :
    FirstFailedCheck State.reset 0x7F0000000000001234#72 (some .illegalCommand) ∧
    FirstFailedCheck State.reset 0x01000000FF00000000#72 (some .badRegister) ∧
    FirstFailedCheck State.reset 0x020000000400000000#72 (some .badRegister) ∧
    FirstFailedCheck State.reset 0x020000000300000000#72 (some .readOnlyRegister) ∧
    FirstFailedCheck State.reset 0x030000000000000900#72 (some .tableIndexRange) ∧
    FirstFailedCheck atLastPos 0x300000000000000041#72 (some .positionOverflow) ∧
    FirstFailedCheck State.reset 0x300000000000000041#72 none ∧
    (opOf 0x020000010700000000#72 = 0x02#8 ∧ (argOf 0x020000010700000000#72).extractLsb' 32 8 = 7#8 ∧
      (argOf 0x020000010700000000#72).extractLsb' 40 24 ≠ 0#24) := by
  refine ⟨?_, ?_, ?_, ?_, ?_, ?_, ⟨⟨.scanByte, ?_⟩, ?_, ?_, ?_, ?_⟩, by decide⟩
  · intro m
    unfold Mnemonic.Selects
    cases m <;> decide
  all_goals
    simp only [FirstFailedCheck, Mnemonic.Selects]
    decide

/-- A step that keeps `ERR`, and the act that clears it. -/
theorem witness_ErrIsStickyUntilReset :
    (raise .illegalCommand 0x7F#8 State.reset).err = true ∧
    (stepOn 0x000000000000000000#72 (raise .illegalCommand 0x7F#8 State.reset)).isSome = true ∧
    (hostAct .reset (raise .illegalCommand 0x7F#8 State.reset)).err = false := by decide

theorem witness_CauseKeepsTheFirstFault :
    State.reset.err = false ∧ (raise .badRegister 0x01#8 State.reset).err = true ∧
    ((stepOn 0x7F0000000000001234#72 State.reset).map State.cause = some 1#4 ∧ State.reset.cause = 0#4) ∧
    (raise .illegalCommand 0x7F#8 State.reset).FaultInv ∧
    (hostAct .reset (raise .badRegister 0x01#8 State.reset)).cause ≠ (raise .badRegister 0x01#8 State.reset).cause := by
  unfold State.FaultInv
  decide

theorem witness_CommandsAfterAFaultAreNotAffectedByIt :
    Instr.rdreg 0#8 ≠ .rdreg 3#8 ∧ HostAct.take ≠ .reset ∧
    (stepOn 0x7F0000000000001234#72 (raise .badRegister 0x01#8 State.reset)).isSome = true ∧
    (raise .badRegister 0x01#8 State.reset).err = true := by decide

theorem witness_WvalidIsTheComparisonAtTheRead :
    (filledA.scanPos ≠ 0xFFFFFFFF#32 ∧ filledA.scanPos.toNat + 1 = filledA.params.w) ∧
    State.reset.scanPos ≠ 0xFFFFFFFF#32 ∧ State.reset.scanPos.toNat + 1 < State.reset.params.w := by decide

theorem witness_EveryStepKeepsTheInvariant :
    ((raise .illegalCommand 0x7F#8 (scannedA 1)).withCmds [0x300000000000000061#72]).Inv ∧
    (nextOf (step ((raise .illegalCommand 0x7F#8 (scannedA 1)).withCmds [0x300000000000000061#72]))).map State.out =
      some [Record.fault .illegalCommand 0x7F#8, Record.matchPair 0#32 1#32] :=
  ⟨scannedA_inv, by decide +kernel⟩

theorem witness_EveryHostActKeepsTheInvariant :
    ((raise .illegalCommand 0x7F#8 (scannedA 1)).withCmds [0x300000000000000061#72]).Inv := scannedA_inv

theorem witness_RecordsLeaveInCommandOrder :
    ((scannedA 1).hist.Wf ∧ (stepOn 0x300000000000000061#72 (scannedA 1)).isSome = true) ∧
    (emit (.rsp 1#32) State.reset).PortInv ∧ (emit (.rsp 1#32) State.reset).pendingRecord = some (.rsp 1#32) := by
  unfold State.PortInv
  decide +kernel

end Sys2Proof.Machine.Tests
end

/-! ## Proofs of the state family: `STATUS`, faults and reset

SUPPORT. Every command either takes one fault or keeps `STATUS` (`exec_raises_or_keepsStatus`); the statements about
`ERR` and `CAUSE` follow from that one dichotomy. -/

namespace Sys2Proof.Machine

/-! ### `FAULT` records and causes -/

theorem Cause.code_bounds (f : Cause) : 1 ≤ f.code.toNat ∧ f.code.toNat ≤ 5 := by cases f <;> decide

theorem firstFault_append (xs ys : List Record) : firstFault (xs ++ ys) = (firstFault xs).or (firstFault ys) := by
  induction xs with
  | nil => rfl
  | cons r xs ih =>
    cases r with
    | rsp v => exact ih
    | matchPair a b => exact ih
    | fault c op => rfl

theorem firstFault_eq_none {rs : List Record} (h : ∀ r ∈ rs, r.isFault = false) : firstFault rs = none := by
  induction rs with
  | nil => rfl
  | cons r rs ih =>
    obtain ⟨hr, hrs⟩ := List.forall_mem_cons.mp h
    cases r with
    | rsp v => exact ih hrs
    | matchPair a b => exact ih hrs
    | fault c op => cases hr

theorem matchRecords_isFault (h : Hist) (depth o : Nat) (v : U32) :
    ∀ r ∈ matchRecords h depth o v, r.isFault = false := by
  intro r hr
  obtain ⟨a, -, rfl⟩ := List.mem_map.mp hr
  rfl

/-! ### The parts of `SCAN_BYTE`, field by field -/

@[simp] theorem scanShift_params (b0 : U8) (s : State) : (scanShift b0 s).params = s.params := rfl
@[simp] theorem scanShift_scanPos (b0 : U8) (s : State) : (scanShift b0 s).scanPos = s.scanPos + 1#32 := rfl

@[simp] theorem completeWindow_params (o : Nat) (v : U32) (s : State) :
    (completeWindow o v s).params = s.params := rfl
@[simp] theorem completeWindow_scanPos (o : Nat) (v : U32) (s : State) :
    (completeWindow o v s).scanPos = s.scanPos := rfl

/-! ### A command takes a fault or keeps `STATUS` -/

/-- `t` has the `ERR` and the `CAUSE` of `s`, and no `FAULT` record that `s` does not have. -/
structure KeepsStatus (s t : State) : Prop where
  err : t.err = s.err
  cause : t.cause = s.cause
  out : ∃ rs, t.out = s.out ++ rs ∧ ∀ r ∈ rs, r.isFault = false

/-- `OUT` is unchanged too: the case of every command that emits nothing. -/
theorem KeepsStatus.of_silent {s t : State} (err : t.err = s.err) (cause : t.cause = s.cause) (out : t.out = s.out) :
    KeepsStatus s t :=
  ⟨err, cause, [], by simpa using out, by simp⟩

theorem KeepsStatus.refl (s : State) : KeepsStatus s s := .of_silent rfl rfl rfl

/-- A command takes exactly one fault, or keeps `STATUS` (rules R240, R241). -/
theorem exec_raises_or_keepsStatus (i : Instr) (s : State) :
    (∃ f, exec i s = .next (raise f i.mnemonic.op s)) ∨ ∃ t, exec i s = .next t ∧ KeepsStatus s t := by
  rcases exec_cases i s with
    ⟨-, h⟩ | fault | ⟨v, -, h⟩ | ⟨v, -, h⟩ | ⟨b0, -, -, -, h⟩ | ⟨b0, -, -, -, h⟩ | ⟨-, h⟩
  · exact .inr ⟨_, h, .refl s⟩
  · exact .inl fault
  · exact .inr ⟨_, h, rfl, rfl, [.rsp v], rfl, by simp [Record.isFault]⟩
  · exact .inr ⟨_, h, .of_silent rfl rfl rfl⟩
  · exact .inr ⟨_, h, .of_silent rfl rfl rfl⟩
  · exact .inr ⟨_, h, rfl, rfl, _, rfl, matchRecords_isFault _ _ _ _⟩
  · exact .inr ⟨_, h, .of_silent rfl rfl rfl⟩

/-- A command word takes exactly one fault, with its own `OP`, or keeps `STATUS` (rules R78, R240). -/
theorem issue_raises_or_keepsStatus (c : U72) (s : State) :
    (∃ f, issue c s = .next (raise f (opOf c) s)) ∨ ∃ t, issue c s = .next t ∧ KeepsStatus s t := by
  rcases issue_cases c s with ⟨i, decoded, h⟩ | ⟨-, h⟩
  · obtain ⟨-, op, -⟩ := (Mnemonic.selects_iff ..).mp (selects_of_decode decoded).1
    rw [h, op]
    exact exec_raises_or_keepsStatus i s
  · exact .inl ⟨_, h⟩

/-- A step raises one fault on the state with its word consumed, or keeps `STATUS`. -/
theorem step_raises_or_keepsStatus {s t : State} (h : step s = .next t) :
    (∃ f op rest, t = raise f op (s.withCmds rest)) ∨ KeepsStatus s t := by
  rcases step_cases h with ⟨-, rfl⟩ | ⟨c, rest, -, h⟩
  · exact .inr (.refl _)
  · rcases issue_raises_or_keepsStatus c (s.withCmds rest) with ⟨f, h'⟩ | ⟨t', h', keeps⟩
    · exact .inl ⟨f, opOf c, rest, by simpa [h] using h'⟩
    · obtain rfl : t = t' := by simpa [h] using h'
      exact .inr ⟨keeps.err, keeps.cause, keeps.out⟩

theorem step_keeps_err {s t : State} (h : step s = .next t) (err : s.err = true) : t.err = true := by
  rcases step_raises_or_keepsStatus h with ⟨f, op, rest, rfl⟩ | keeps
  · exact raise_err ..
  · rw [keeps.err, err]

/-- A step changes `CAUSE` only by the first fault, which writes its code (rule R29). -/
theorem step_changes_cause {s t : State} (h : step s = .next t) (ne : t.cause ≠ s.cause) :
    s.err = false ∧ ∃ f : Cause, t.cause = f.code := by
  rcases step_raises_or_keepsStatus h with ⟨f, op, rest, rfl⟩ | keeps
  · cases err : s.err with
    | false => exact ⟨rfl, f, by simp [err]⟩
    | true => exact absurd (by simp [err]) ne
  · exact absurd keeps.cause ne

/-! ### The fault invariant -/

theorem State.FaultInv.of_keepsStatus {s t : State} (inv : s.FaultInv) (keeps : KeepsStatus s t) : t.FaultInv := by
  obtain ⟨rs, out, noFault⟩ := keeps.out
  have same : firstFault t.out = firstFault s.out := by
    rw [out, firstFault_append, firstFault_eq_none noFault, Option.or_none]
  unfold State.FaultInv
  rw [same, keeps.err, keeps.cause]
  exact inv

theorem State.FaultInv.raise {s : State} (inv : s.FaultInv) (f : Cause) (op : U8) : (raise f op s).FaultInv := by
  obtain ⟨err, cause⟩ := inv
  unfold State.FaultInv
  rw [raise_err, raise_cause, raise_out, firstFault_append, err, cause]
  cases firstFault s.out <;> simp [firstFault]

theorem State.FaultInv.step {s t : State} (inv : s.FaultInv) (h : step s = .next t) : t.FaultInv := by
  rcases step_raises_or_keepsStatus h with ⟨f, op, rest, rfl⟩ | keeps
  · have consumed : (s.withCmds rest).FaultInv := inv
    exact consumed.raise f op
  · exact inv.of_keepsStatus keeps

theorem State.FaultInv.cause_le {s : State} (inv : s.FaultInv) : s.cause.toNat ≤ 5 := by
  obtain ⟨-, cause⟩ := inv
  rw [cause]
  cases firstFault s.out with
  | none => simp
  | some f => exact f.code_bounds.2

/-! ### The acts of the host -/

theorem State.applyReset_eq (s : State) : s.applyReset = State.resetOf s.params := rfl

theorem State.take_status (s : State) : s.take.err = s.err ∧ s.take.cause = s.cause := by
  unfold State.take
  split <;> exact ⟨rfl, rfl⟩

/-- Only reset touches `ERR` and `CAUSE` (rules R28, R29). -/
theorem hostAct_status {a : HostAct} (h : a ≠ .reset) (s : State) :
    (hostAct a s).err = s.err ∧ (hostAct a s).cause = s.cause := by
  cases a with
  | offer c => exact ⟨rfl, rfl⟩
  | take => exact s.take_status
  | reset => exact absurd rfl h

/-! ### `WVALID` and the word of `STATUS` -/

theorem State.wvalid_eq_true_iff (s : State) : s.wvalid = true ↔ s.params.w ≤ s.scanPos.toNat := by
  simp [State.wvalid]

theorem State.wvalid_eq_false_iff (s : State) : s.wvalid = false ↔ s.scanPos.toNat < s.params.w := by
  simp [State.wvalid]

/-- With no byte of a stream given, no window is complete (`W >= 1`, rule R7). -/
theorem State.wvalid_eq_false_of_scanPos_zero {s : State} (h : s.scanPos = 0#32) : s.wvalid = false := by
  rw [State.wvalid_eq_false_iff, h]
  exact s.params.w_pos

@[simp] theorem State.resetOf_wvalid (p : Params) : (State.resetOf p).wvalid = false :=
  State.wvalid_eq_false_of_scanPos_zero rfl

theorem State.statusWord_bit_zero (s : State) : s.statusWord.getLsbD 0 = s.wvalid := by
  simp only [State.statusWord, BitVec.getLsbD_append, BitVec.getLsbD_ofBool]
  simp

/-- Bits 31:8 and 3:2 of the layout of rule R26 are 0, whatever its fields hold. -/
theorem State.statusWord_reserved (s : State) : s.statusWord &&& 0xFFFFFF0C#32 = 0#32 := by
  unfold State.statusWord
  generalize s.cause = c, s.err = e, s.wvalid = v
  revert c e v
  decide

/-! ### The obligations -/

/-- Settles O48: a step that raises a fault sets `ERR`, and every other step and host act but reset keeps it. -/
theorem errIsStickyUntilReset : Obligations.ErrIsStickyUntilReset := by
  refine ⟨raise_err, fun s t => step_keeps_err, fun a s err cleared => ?_, fun s => State.resetOf_err s.params⟩
  by_contra h
  rw [(hostAct_status h s).1, err] at cleared
  cases cleared

/-- Settles O49, by the dichotomy of `step_raises_or_keepsStatus`. -/
theorem causeKeepsTheFirstFault : Obligations.CauseKeepsTheFirstFault := by
  refine ⟨?writes, ?keeps, fun s t => step_changes_cause, Cause.code_bounds, ?invariant, ?host,
    fun s => State.resetOf_cause s.params⟩
  case writes => intro f op s err; simp [err]
  case keeps => intro f op s err; simp [err]
  case invariant => exact fun s t inv h => ⟨inv.step h, (inv.step h).cause_le⟩
  case host =>
    intro a s changed
    by_contra h
    exact changed (hostAct_status h s).2

/-- Settles O51: the value read is the word of `STATUS`, whose reserved bits are 0. -/
theorem statusReservedBitsReadZero : Obligations.StatusReservedBitsReadZero :=
  fun s => ⟨s.statusWord, rfl, s.statusWord_reserved⟩

/-- Settles O52: `SCAN_BYTE` counts the byte in `SCAN_POS`, with a window compared or not, and `SCAN_END` and reset
return it to 0. -/
theorem wvalidIsTheComparisonAtTheRead : Obligations.WvalidIsTheComparisonAtTheRead := by
  refine ⟨State.statusWord_bit_zero, ?atW, ?belowW, ?scanEnd, fun s => State.resetOf_wvalid s.params⟩
  case atW =>
    intro s b0 notLast atW
    refine ⟨s.wvalid_eq_false_iff.mpr (by omega), _, execScanByte_window notLast atW.ge b0, ?_⟩
    rw [State.wvalid_eq_true_iff, completeWindow_params, completeWindow_scanPos, scanShift_params, scanShift_scanPos,
      (scanPos_add_one_toNat notLast).1]
    exact atW.ge
  case belowW =>
    intro s b0 notLast belowW
    refine ⟨_, execScanByte_noWindow notLast belowW b0, ?_⟩
    rw [State.wvalid_eq_false_iff, scanShift_params, scanShift_scanPos, (scanPos_add_one_toNat notLast).1]
    exact belowW
  case scanEnd => exact fun s => ⟨_, execScanEnd_eq s, State.wvalid_eq_false_of_scanPos_zero rfl⟩

/-- Settles O53, field by field of the reset state of the instance. -/
theorem resetGivesEveryPieceOfStateItsValue : Obligations.ResetGivesEveryPieceOfStateItsValue := by
  intro s
  rw [State.applyReset_eq]
  have status : (State.resetOf s.params).statusWord = 0#32 := by simp [State.statusWord]
  have length : (State.resetOf s.params).wbuf.length = s.params.w := by simp
  have bytes (j : Nat) (h : j < s.params.w) : (State.resetOf s.params).wbuf[j]? = some 0x00#8 := by simp [h]
  exact ⟨rfl, rfl, rfl, status, State.resetOf_wvalid _, rfl, rfl, length, bytes, fun _ => rfl, rfl, fun _ => rfl⟩

end Sys2Proof.Machine


/-! ## Proofs of the memory family: the table space and reads

SUPPORT. What a lookup reads depends on the state through `W` alone, so the tables stay what they are because no step and
no act of the host writes `params`. A reading command answers a value that `OUT` has no part in
(`exec_read_idempotent`), so reading again gives it again. -/

namespace Sys2Proof.Machine

/-! ### The parameters never change -/

theorem exec_keeps_params {i : Instr} {s t : State} (h : exec i s = .next t) : t.params = s.params := by
  rcases exec_cases i s with
    ⟨-, h'⟩ | ⟨f, h'⟩ | ⟨v, -, h'⟩ | ⟨v, -, h'⟩ | ⟨b0, -, -, -, h'⟩ | ⟨b0, -, -, -, h'⟩ | ⟨-, h'⟩
  all_goals
    obtain rfl := Host.Outcome.next.inj (h'.symm.trans h)
    simp

theorem issue_keeps_params {c : U72} {s t : State} (h : issue c s = .next t) : t.params = s.params := by
  rcases issue_cases c s with ⟨i, -, h'⟩ | ⟨-, h'⟩
  · exact exec_keeps_params (h'.symm.trans h)
  · obtain rfl := Host.Outcome.next.inj (h'.symm.trans h)
    exact raise_params ..

theorem step_keeps_params {s t : State} (h : step s = .next t) : t.params = s.params := by
  rcases step_cases h with ⟨-, rfl⟩ | ⟨c, rest, -, issued⟩
  · rfl
  · exact (issue_keeps_params issued).trans (s.withCmds_params rest)

theorem State.take_params (s : State) : s.take.params = s.params := by
  unfold State.take
  split <;> rfl

/-- Reset included: it gives the reset state of the same instance (rule R260). -/
theorem hostAct_keeps_params (a : HostAct) (s : State) : (hostAct a s).params = s.params := by
  cases a with
  | offer c => rfl
  | reset => rfl
  | take => exact s.take_params

/-! ### Reads -/

theorem RegName.exists_number_eq {reg : U8} (h : reg.toNat ≤ 3) : ∃ r : RegName, r.number = reg := by
  have number : reg = 0#8 ∨ reg = 1#8 ∨ reg = 2#8 ∨ reg = 3#8 := by bv_omega
  rcases number with rfl | rfl | rfl | rfl
  · exact ⟨.rem, rfl⟩
  · exact ⟨.scanSum, rfl⟩
  · exact ⟨.scanPos, rfl⟩
  · exact ⟨.status, rfl⟩

/-- No register, `STATUS` included, holds anything of `OUT`. -/
@[simp] theorem State.withOut_readReg (s : State) (rs : List Record) (r : RegName) :
    (s.withOut rs).readReg r = s.readReg r := by
  cases r <;> rfl

theorem exec_rdreg_number (r : RegName) (s : State) :
    exec (.rdreg r.number) s = .next (emit (.rsp (s.readReg r)) s) := by
  simp only [exec, execRdreg, RegName.ofNumber_number]

theorem exec_tblRead_of_lt {idx : U12} (h : idx.toNat < 2304) (s : State) :
    exec (.tblRead idx) s = .next (emit (.rsp (memRead s.params.w ⟨idx.toNat, h⟩)) s) := by
  simp only [exec, execTblRead, dif_pos h]

/-- A command that answers `read` of every state, where `read` does not depend on `OUT`, answers the same again. -/
theorem exec_read_idempotent {i : Instr} {read : State → U32}
    (answers : ∀ s, exec i s = .next (emit (.rsp (read s)) s)) (frame : ∀ s rs, read (s.withOut rs) = read s)
    (s : State) : ∃ v,
      exec i s = .next (s.withOut (s.out ++ [Record.rsp v])) ∧
      exec i (s.withOut (s.out ++ [Record.rsp v])) = .next (s.withOut (s.out ++ [Record.rsp v, Record.rsp v])) := by
  refine ⟨read s, answers s, ?_⟩
  rw [answers, frame]
  simp [emit, State.withOut]

/-- Settles O26: a lookup reads `W` alone, which nothing writes, and neither read depends on `OUT`. -/
theorem readsAreIdempotentAndTablesNeverChange : Obligations.ReadsAreIdempotentAndTablesNeverChange := by
  refine ⟨?step, ?host, ?register, ?table⟩
  case step => intro s t idx h; rw [step_keeps_params h]
  case host => intro a s idx; rw [hostAct_keeps_params]
  case register =>
    intro s reg named
    obtain ⟨r, rfl⟩ := RegName.exists_number_eq named
    exact exec_read_idempotent (exec_rdreg_number r) (fun s rs => s.withOut_readReg rs r) s
  case table =>
    intro s idx inRange
    exact exec_read_idempotent (exec_tblRead_of_lt inRange) (fun _ _ => rfl) s

end Sys2Proof.Machine

/-! ## Proofs of the encoding family: no row, one row, and the only no-op

SUPPORT. The rows of the opcode map have different `OP` values, so a word selects the row of its `OP` or none
(`eq_of_selects`). `NOP` is the only command that does nothing in every state: a fault and a response grow `OUT`, the
scan commands move `SCAN_POS` or `SCAN_SUM`, and no writer of `REM` leaves every remainder as it is (`exists_ne_of_xor`). -/

namespace Sys2Proof

/-! ### The row of a word -/

namespace Mnemonic

/-- The row a word selects is the one with its `OP` value. -/
theorem eq_of_selects {sm : SliceMax} {c : U72} {m m' : Mnemonic} (op : opOf c = m.op) (h : Selects sm m' c) :
    m' = m := by
  obtain ⟨-, op', -⟩ := (selects_iff ..).mp h
  exact op_injective (op'.symm.trans op)

theorem not_selects_of_absent {sm : SliceMax} {c : U72} {m : Mnemonic} (op : opOf c = m.op)
    (absent : sm.width < m.minSlice) (m' : Mnemonic) : ¬ Selects sm m' c := by
  intro h
  obtain rfl := eq_of_selects op h
  obtain ⟨present, -⟩ := h
  omega

theorem not_selects_of_reserved {sm : SliceMax} {c : U72} {m : Mnemonic} (op : opOf c = m.op)
    (reserved : argOf c &&& m.format.reserved ≠ 0#64) (m' : Mnemonic) : ¬ Selects sm m' c := by
  intro h
  obtain rfl := eq_of_selects op h
  obtain ⟨-, -, clear⟩ := (selects_iff ..).mp h
  exact reserved clear

end Mnemonic

/-- A word that decodes selects exactly the row of its command. -/
theorem selects_iff_of_decode {sm : SliceMax} {c : U72} {i : Instr} (h : decode sm c = .ok i) (m : Mnemonic) :
    Mnemonic.Selects sm m c ↔ m = i.mnemonic := by
  obtain ⟨row, -⟩ := selects_of_decode h
  exact ⟨fun hm => Mnemonic.selects_unique hm row, fun hm => hm ▸ row⟩

/-- All 72 bits of the word of `NOP` are fixed. -/
theorem eq_encode_nop_of_decode {sm : SliceMax} {c : U72} (h : decode sm c = .ok .nop) : c = encode .nop := by
  obtain ⟨⟨-, bits⟩, -⟩ := selects_of_decode h
  exact (BitVec.and_allOnes (x := c)).symm.trans bits

namespace Machine

/-! ### What a word does -/

theorem issue_of_decode {s : State} {c : U72} {i : Instr} (h : decode s.params.sliceMax c = .ok i) :
    issue c s = exec i s := by
  unfold issue
  rw [h]

theorem issue_of_not_selects {s : State} {c : U72} (h : ∀ m, ¬ Mnemonic.Selects s.params.sliceMax m c) :
    issue c s = .next (raise .illegalCommand (opOf c) s) := by
  rcases issue_cases c s with ⟨i, decoded, -⟩ | ⟨-, raises⟩
  · exact absurd (selects_of_decode decoded).1 (h i.mnemonic)
  · exact raises

theorem step_of_cmds {s : State} {c : U72} {rest : List U72} (h : s.cmds = c :: rest) :
    step s = issue c (s.withCmds rest) := by
  unfold step
  rw [accept_eq_some h]

/-- The waiting word is consumed, and the fault carries its `OP` byte (rules R78, R232). -/
theorem step_of_not_selects {s : State} {c : U72} {rest : List U72} (waiting : s.cmds = c :: rest)
    (noRow : ∀ m, ¬ Mnemonic.Selects s.params.sliceMax m c) :
    step s = .next (raise .illegalCommand (opOf c) (s.withCmds rest)) := by
  rw [step_of_cmds waiting]
  exact issue_of_not_selects noRow

/-! ### No writer of `REM` leaves every remainder as it is -/

/-- A function that leaves every remainder as it is keeps the difference of `d` and `d` with bit 0 flipped. -/
theorem exists_ne_of_xor {f : U32 → U32} (d : U32) (h : f d ^^^ f (d ^^^ 1#32) ≠ 1#32) : ∃ r, f r ≠ r := by
  by_contra all
  push Not at all
  rw [all, all, ← BitVec.xor_assoc, BitVec.xor_self, BitVec.zero_xor] at h
  exact h rfl

theorem xor_xor_cancel (d v : U32) : d ^^^ v ^^^ d = v := by
  rw [BitVec.xor_comm d v, BitVec.xor_assoc, BitVec.xor_self, BitVec.xor_zero]

theorem xor_xor_xor_cancel_right (a b x : U32) : a ^^^ x ^^^ (b ^^^ x) = a ^^^ b := by
  rw [BitVec.xor_comm b x, BitVec.xor_assoc, ← BitVec.xor_assoc x x, BitVec.xor_self, BitVec.zero_xor]

/-- The byte step is linear over XOR (rule R103). -/
theorem updateByte_xor (a b : U32) (x y : U8) :
    updateByte (a ^^^ b) (x ^^^ y) = updateByte a x ^^^ updateByte b y := by
  simp only [updateByte, BitVec.getLsbD_xor, updateBit_xor]

/-- A lookup in a slice group is the entry of rule R111. -/
theorem groupRead_eq_sliceEntry (w : Nat) (k : Fin 8) (i : U8) : groupRead w k i = sliceEntry k.val i := by
  have hi := i.isLt
  have hk := k.isLt
  have group : (256 * k.val + i.toNat) / 256 = k.val := by omega
  have entry : (256 * k.val + i.toNat) % 256 = i.toNat := by omega
  unfold groupRead memRead
  rw [if_pos (by simp only; omega)]
  simp only [group, entry, BitVec.ofNat_toNat, BitVec.setWidth_eq]

theorem exists_stepByTable_ne (w : Nat) (b0 : U8) : ∃ r, stepByTable w r b0 ≠ r := by
  refine exists_ne_of_xor (zext32 b0) ?_
  have shift : (zext32 b0 ^^^ 1#32) >>> 8 = zext32 b0 >>> 8 := by
    rw [BitVec.ushiftRight_xor_distrib, show 1#32 >>> 8 = 0#32 by decide, BitVec.xor_zero]
  simp only [stepByTable, shift, BitVec.xor_comm (zext32 b0 >>> 8), xor_xor_xor_cancel_right, xor_xor_cancel,
    BitVec.xor_self, groupRead_eq_sliceEntry]
  decide

theorem exists_stepByFour_ne (w : Nat) (d : U32) : ∃ r, stepByFour w r d ≠ r := by
  refine exists_ne_of_xor d ?_
  simp only [stepByFour, xor_xor_cancel, BitVec.xor_self, groupRead_eq_sliceEntry]
  decide

theorem exists_stepByEight_ne (w : Nat) (lo hi : U32) : ∃ r, stepByEight w r lo hi ≠ r := by
  refine exists_ne_of_xor lo ?_
  simp only [stepByEight, xor_xor_xor_cancel_right, xor_xor_cancel, BitVec.xor_self, groupRead_eq_sliceEntry]
  decide +kernel

theorem exists_rollUpdate_ne (w : Nat) (inb outb : U8) : ∃ r, rollUpdate w r inb outb ≠ r := by
  refine exists_ne_of_xor (rollRead w outb) ?_
  simp only [rollUpdate, xor_xor_cancel, BitVec.xor_self, ← updateByte_xor, BitVec.zero_xor]
  decide

/-! ### The only no-op -/

/-- The command changes nothing in any state of the instance. -/
def IsNoop (p : Params) (i : Instr) : Prop := ∀ s : State, s.params = p → exec i s = .next s

theorem emit_ne (r : Record) (s : State) : emit r s ≠ s := by
  intro h
  simpa using congrArg State.out h

theorem raise_ne (f : Cause) (op : U8) (s : State) : raise f op s ≠ s := by
  intro h
  simpa using congrArg State.out h

theorem scanShift_scanPos_ne (b0 : U8) (s : State) : (scanShift b0 s).scanPos ≠ s.scanPos := by
  rw [scanShift_scanPos]
  bv_omega

theorem not_isNoop_of_next {p : Params} {i : Instr} {s t : State} (hs : s.params = p) (h : exec i s = .next t)
    (ne : t ≠ s) : ¬ IsNoop p i := by
  intro noop
  exact ne (Host.Outcome.next.inj (h.symm.trans (noop s hs)))

theorem not_isNoop_of_rem {p : Params} {i : Instr} {f : U32 → U32}
    (writes : ∀ s : State, s.params = p → exec i s = .next (s.withRem (f s.rem))) (moves : ∃ r, f r ≠ r) :
    ¬ IsNoop p i := by
  obtain ⟨r, hr⟩ := moves
  refine not_isNoop_of_next (s := (State.resetOf p).withRem r) rfl (writes _ rfl) fun h => hr ?_
  simpa using congrArg State.rem h

theorem not_isNoop_of_raise {p : Params} {i : Instr} {f : Cause} {op : U8}
    (raises : ∀ s : State, s.params = p → exec i s = .next (raise f op s)) : ¬ IsNoop p i :=
  not_isNoop_of_next (s := State.resetOf p) rfl (raises _ rfl) (raise_ne _ _ _)

/-- A slice command takes a fault on an instance without it, and writes `REM` on one that has it. -/
theorem not_isNoop_of_batchedData {p : Params} {i : Instr} (data : (batchedData i).isSome = true) : ¬ IsNoop p i := by
  cases i with
  | crcByte b0 => exact not_isNoop_of_rem (by rintro s rfl; rfl) (exists_stepByTable_ne p.w b0)
  | crcSlice4 b0 b1 b2 b3 =>
    by_cases absent : p.sliceMax.width < 4
    · exact not_isNoop_of_raise (by rintro s rfl; exact if_pos absent)
    · exact not_isNoop_of_rem (by rintro s rfl; exact if_neg absent) (exists_stepByFour_ne p.w _)
  | crcSlice8 b0 b1 b2 b3 b4 b5 b6 b7 =>
    by_cases absent : p.sliceMax.width < 8
    · exact not_isNoop_of_raise (by rintro s rfl; exact if_pos absent)
    · exact not_isNoop_of_rem (by rintro s rfl; exact if_neg absent) (exists_stepByEight_ne p.w _ _)
  | nop | rdreg | wrreg | tblRead | rollStep | scanByte | scanEnd => cases data

theorem not_isNoop_wrreg_rem (p : Params) (val : U32) : ¬ IsNoop p (.wrreg 0#8 val) :=
  not_isNoop_of_rem (f := fun _ => val) (fun _ _ => rfl) ⟨~~~val, fun h => by bv_omega⟩

theorem not_isNoop_rollStep (p : Params) (inb outb : U8) : ¬ IsNoop p (.rollStep inb outb) :=
  not_isNoop_of_rem (by rintro s rfl; rfl) (exists_rollUpdate_ne p.w inb outb)

/-- Only `NOP` is a no-op (rule R80). Reset with `SCAN_SUM = 1` is changed by every command that writes no `REM`. -/
theorem eq_nop_of_isNoop {p : Params} {i : Instr} (noop : IsNoop p i) : i = .nop := by
  by_contra ne
  have changes {t : State} (h : exec i ((State.resetOf p).withScanSum 1#32) = .next t)
      (ht : t ≠ (State.resetOf p).withScanSum 1#32) : False := not_isNoop_of_next rfl h ht noop
  rcases exec_cases i ((State.resetOf p).withScanSum 1#32) with
    ⟨rfl, -⟩ | ⟨f, h⟩ | ⟨v, -, h⟩ | ⟨v, writer, -⟩ | ⟨b0, -, -, -, h⟩ | ⟨b0, -, -, -, h⟩ | ⟨-, h⟩
  · exact ne rfl
  · exact changes h (raise_ne _ _ _)
  · exact changes h (emit_ne _ _)
  · rcases writer with ⟨val, rfl⟩ | data | ⟨inb, outb, rfl⟩
    · exact not_isNoop_wrreg_rem p val noop
    · exact not_isNoop_of_batchedData data noop
    · exact not_isNoop_rollStep p inb outb noop
  · exact changes h fun same => scanShift_scanPos_ne b0 _ (congrArg State.scanPos same)
  · exact changes h fun same => scanShift_scanPos_ne b0 _ ((completeWindow_scanPos ..).symm.trans
      (congrArg State.scanPos same))
  · exact changes h fun same => absurd (congrArg State.scanSum same) (by simp)

/-! ### The obligations -/

/-- Settles O13: a word decodes to the command of its one row or selects none, and the command of a word that does
nothing is `NOP`. -/
theorem everyWordMatchesOneRowOrIsIllegal : Obligations.EveryWordMatchesOneRowOrIsIllegal := by
  refine ⟨fun s c => ?row, fun p c noop => ?nop⟩
  case row =>
    rcases issue_cases c s with ⟨i, decoded, -⟩ | illegal
    · exact .inl ⟨i, decoded, selects_iff_of_decode decoded⟩
    · exact .inr illegal
  case nop =>
    rcases issue_cases c (State.resetOf p) with ⟨i, decoded, -⟩ | ⟨-, raises⟩
    · have isNoop : IsNoop p i := by
        intro s hs
        rw [← issue_of_decode (hs ▸ decoded)]
        exact noop s hs
      obtain rfl := eq_nop_of_isNoop isNoop
      exact eq_encode_nop_of_decode decoded
    · exact absurd (Host.Outcome.next.inj (raises.symm.trans (noop _ rfl))) (raise_ne _ _ _)

/-- Settles O14: each cause of illegality leaves the word without the row of its `OP`, the only one it could select. -/
theorem wordsThatMatchNoRowRaiseIllegalCommand : Obligations.WordsThatMatchNoRowRaiseIllegalCommand := by
  refine ⟨fun s c rest => step_of_not_selects, ?unlisted, ?count, ?slice8, ?slice4,
    fun sm c m => Mnemonic.not_selects_of_reserved, ?vector⟩
  case unlisted =>
    intro sm c unlisted m h
    obtain ⟨-, op, -⟩ := (Mnemonic.selects_iff ..).mp h
    exact unlisted m op
  case count => decide +kernel
  case slice8 =>
    intro sm c op narrow
    exact Mnemonic.not_selects_of_absent (m := .crcSlice8) op narrow
  case slice4 =>
    intro sm c op narrow
    exact Mnemonic.not_selects_of_absent (m := .crcSlice4) op (by simp [Mnemonic.minSlice, narrow])
  case vector =>
    intro s rest waiting
    have noRow := Mnemonic.not_selects_of_reserved (sm := s.params.sliceMax) (m := .crcByte)
      (c := 0x100000000000000131#72) (by decide) (by decide)
    exact ⟨_, step_of_not_selects waiting noRow, List.map_append⟩

end Machine

end Sys2Proof

/-! ## Proofs of the table-generator family: the bit step, the byte step, the table space and `TBL_READ`

SUPPORT. A slice entry and a rolling entry are both a base entry advanced by zero bytes, so both are `crc` of the byte
and those zero bytes (`sliceEntry_eq_crc`, `rollEntry_eq_crc`); the word `TBL_READ` answers is read off that form. A
word whose `OP` is a row's runs that row's command or raises `IllegalCommand` (`issue_of_op`). -/

namespace Sys2Proof.Machine

/-! ### The bit step and the byte step -/

/-- The feedback bit of rule R100 as the quoted formula computes it. -/
theorem xor_and_one_ne_zero_iff (r : U32) (bit : Bool) :
    (r ^^^ (BitVec.ofBool bit).setWidth 32) &&& 1#32 ≠ 0#32 ↔ Bool.xor (r.getLsbD 0) bit = true := by
  rw [BitVec.and_one_eq_setWidth_ofBool_getLsbD, BitVec.getLsbD_xor]
  cases r.getLsbD 0 <;> cases bit <;> decide

theorem updateBit_eq (r : U32) (bit : Bool) :
    updateBit r bit =
      (r >>> 1) ^^^ (if (r ^^^ (BitVec.ofBool bit).setWidth 32) &&& 1#32 ≠ 0#32 then poly else 0#32) := by
  simp only [updateBit, xor_and_one_ne_zero_iff]

theorem updateByte_eq_foldl (r : U32) (b : U8) :
    updateByte r b = (List.range 8).foldl (fun acc j => updateBit acc (b.getLsbD j)) r := rfl

theorem updateByte_zero : updateByte 0#32 0#8 = 0#32 := by decide

/-! ### `crc` and the zero-byte advance -/

theorem crc_append (r : U32) (a b : List U8) : crc r (a ++ b) = crc (crc r a) b := by
  induction a generalizing r with
  | nil => rfl
  | cons x a ih => exact ih (updateByte r x)

theorem crc_replicate_succ (r : U32) (k : Nat) :
    crc r (List.replicate (k + 1) 0#8) = updateByte (crc r (List.replicate k 0#8)) 0#8 := by
  rw [List.replicate_succ', crc_append]
  rfl

theorem crc_zero_replicate (k : Nat) : crc 0#32 (List.replicate k 0#8) = 0#32 := by
  induction k with
  | zero => rfl
  | succ k ih => rw [crc_replicate_succ, ih, updateByte_zero]

/-- `Z^k` is `k` zero bytes (rule R107). -/
theorem zeroAdvance_eq_crc (k : Nat) (x : U32) : zeroAdvance k x = crc x (List.replicate k 0#8) := by
  induction k generalizing x with
  | zero => rfl
  | succ k ih => exact ih (updateByte x 0#8)

/-! ### The table space -/

theorem sliceEntry_eq_crc (k : Nat) (i : U8) : sliceEntry k i = crc 0#32 (i :: List.replicate k 0#8) := by
  induction k with
  | zero => rfl
  | succ k ih =>
    calc sliceEntry (k + 1) i
      _ = updateByte (crc (updateByte 0#32 i) (List.replicate k 0#8)) 0#8 := congrArg (updateByte · 0#8) ih
      _ = crc (updateByte 0#32 i) (List.replicate (k + 1) 0#8) := (crc_replicate_succ ..).symm

theorem rollEntry_eq_crc (w : Nat) (i : U8) : rollEntry w i = crc 0#32 (i :: List.replicate (w - 1) 0#8) :=
  zeroAdvance_eq_crc (w - 1) (updateByte 0#32 i)

theorem rollEntry_zero (w : Nat) : rollEntry w 0#8 = 0#32 :=
  (rollEntry_eq_crc w 0#8).trans (crc_zero_replicate (w - 1 + 1))

theorem memRead_of_lt (w : Nat) {j : Nat} (h : j < 2304) (slice : j < 2048) :
    memRead w ⟨j, h⟩ = sliceEntry (j / 256) (BitVec.ofNat 8 (j % 256)) := if_pos slice

theorem memRead_of_ge (w : Nat) {j : Nat} (h : j < 2304) (roll : 2048 ≤ j) :
    memRead w ⟨j, h⟩ = rollEntry w (BitVec.ofNat 8 (j - 2048)) := if_neg (Nat.not_lt.mpr roll)

/-- One group on is one zero byte on (rule R112). -/
theorem memRead_eq_updateByte (w : Nat) {j : Nat} (h : j < 2304) (h' : j - 256 < 2304) (ge : 256 ≤ j)
    (slice : j < 2048) : memRead w ⟨j, h⟩ = updateByte (memRead w ⟨j - 256, h'⟩) 0#8 := by
  have group : j / 256 = (j - 256) / 256 + 1 := by omega
  have entry : j % 256 = (j - 256) % 256 := by omega
  rw [memRead_of_lt w h slice, memRead_of_lt w h' (by omega), group, entry]
  rfl

theorem rollRead_eq_rollEntry (w : Nat) (i : U8) : rollRead w i = rollEntry w i := by
  unfold rollRead
  rw [memRead_of_ge w _ (Nat.le_add_right ..), Nat.add_sub_cancel_left, BitVec.ofNat_toNat, BitVec.setWidth_eq]

/-! ### The command `TBL_READ` -/

theorem exec_tblRead_of_word {idx : U12} (h : idx.toNat < 2304) {s : State} {v : U32}
    (word : memRead s.params.w ⟨idx.toNat, h⟩ = v) :
    exec (.tblRead idx) s = .next (s.withOut (s.out ++ [Record.rsp v])) := by
  rw [exec_tblRead_of_lt h, word]
  rfl

/-- The entry number of table word `idx` within its table of 256 words is `idx[7:0]`. -/
theorem ofNat_eq_extractLsb' {idx : U12} {n : Nat} (h : n % 256 = idx.toNat % 256) :
    BitVec.ofNat 8 n = idx.extractLsb' 0 8 := by
  apply BitVec.eq_of_toNat_eq
  simpa using h

theorem memRead_slice_eq_crc (w : Nat) {idx : U12} (h : idx.toNat < 2304) (slice : idx.toNat < 2048) :
    memRead w ⟨idx.toNat, h⟩ = crc 0#32 (idx.extractLsb' 0 8 :: List.replicate (idx.toNat / 256) 0#8) := by
  rw [memRead_of_lt w h slice, sliceEntry_eq_crc, ofNat_eq_extractLsb' (Nat.mod_mod ..)]

theorem memRead_roll_eq_crc (w : Nat) {idx : U12} (h : idx.toNat < 2304) (roll : 2048 ≤ idx.toNat) :
    memRead w ⟨idx.toNat, h⟩ = crc 0#32 (idx.extractLsb' 0 8 :: List.replicate (w - 1) 0#8) := by
  rw [memRead_of_ge w h roll, rollEntry_eq_crc, ofNat_eq_extractLsb' (idx := idx) (by omega)]

theorem exec_tblRead_of_ge {idx : U12} (outOfRange : 2304 ≤ idx.toNat) (s : State) :
    exec (.tblRead idx) s = .next (raise .tableIndexRange 0x03#8 s) := dif_neg (Nat.not_lt.mpr outOfRange)

/-- What the word of a row the instance has does: its command, or `IllegalCommand` where a reserved bit is set. -/
theorem issue_of_op {s : State} {c : U72} {m : Mnemonic} (op : opOf c = m.op)
    (present : m.minSlice ≤ s.params.sliceMax.width) :
    issue c s = if argOf c &&& m.format.reserved = 0#64
      then exec (m.read (argOf c)) s else .next (raise .illegalCommand m.op s) := by
  split
  case isTrue clear => exact issue_of_decode (decode_of_selects ((Mnemonic.selects_iff ..).mpr ⟨present, op, clear⟩))
  case isFalse reserved => rw [issue_of_not_selects (Mnemonic.not_selects_of_reserved op reserved), op]

theorem one_le_width (sm : SliceMax) : 1 ≤ sm.width := by cases sm <;> decide

/-- No bit from `n` up is set: as a mask, and as a field. -/
theorem and_allOnes_shiftLeft_eq_zero_iff {w : Nat} (x : BitVec w) (n : Nat) :
    x &&& BitVec.allOnes w <<< n = 0#w ↔ x.extractLsb' n (w - n) = 0#(w - n) := by
  constructor
  · intro clear
    apply BitVec.eq_of_getLsbD_eq
    intro j hj
    have bit := congrArg (BitVec.getLsbD · (n + j)) clear
    simpa [hj, show n + j < w by omega] using bit
  · intro zero
    apply BitVec.eq_of_getLsbD_eq
    intro j hj
    rcases Nat.lt_or_ge j n with below | above
    · simp [below]
    · have bit := congrArg (BitVec.getLsbD · (j - n)) zero
      have unset : x.getLsbD j = false := by
        simpa [show j - n < w - n by omega, Nat.add_sub_cancel' above] using bit
      rw [BitVec.getLsbD_and, unset, Bool.false_and, BitVec.getLsbD_zero]

theorem issue_of_op_tblRead {c : U72} (op : opOf c = 0x03#8) (s : State) :
    issue c s = if (argOf c).extractLsb' 12 52 = 0#52
      then exec (.tblRead ((argOf c).extractLsb' 0 12)) s else .next (raise .illegalCommand 0x03#8 s) := by
  have reserved : argOf c &&& Mnemonic.tblRead.format.reserved = 0#64 ↔ (argOf c).extractLsb' 12 52 = 0#52 :=
    and_allOnes_shiftLeft_eq_zero_iff (argOf c) 12
  rw [issue_of_op (m := .tblRead) op (one_le_width _)]
  simp only [reserved]
  rfl

/-! ### The obligations -/

/-- Settles O1: the quoted feedback condition is the model's feedback bit (`updateBit_eq`). -/
theorem bitStepShiftsAndFeedsBack : Obligations.BitStepShiftsAndFeedsBack :=
  ⟨updateBit_eq, by decide⟩

/-- Settles O3, from the linearity of the bit step. -/
theorem byteStepIsLinearOverXor : Obligations.ByteStepIsLinearOverXor :=
  ⟨updateByte_zero, fun a b => updateByte_xor a b 0#8 0#8⟩

/-- Settles O8: an entry of group `k` is `crc` of its byte and `k` zero bytes, and one group on is one zero byte on. -/
theorem flatSliceTableFollowsItsRecurrence : Obligations.FlatSliceTableFollowsItsRecurrence := by
  refine ⟨fun w k i h => ⟨rfl, ?entry⟩, fun w j h h' ge le => ?recurrence⟩
  case entry => rw [groupRead_eq_sliceEntry, sliceEntry_eq_crc]
  case recurrence => exact memRead_eq_updateByte w h h' ge (by omega)

/-- Settles O9: a rolling entry is the base entry advanced by `W - 1` zero bytes. -/
theorem rollingTableAppendsOneZeroByteLessThanTheWindow :
    Obligations.RollingTableAppendsOneZeroByteLessThanTheWindow := by
  refine ⟨fun w i h _ => ⟨rfl, ?advance, ?crc⟩, ?values⟩
  case advance => rw [rollRead_eq_rollEntry, groupRead_eq_sliceEntry]; rfl
  case crc => rw [rollRead_eq_rollEntry, rollEntry_eq_crc]
  case values => decide +kernel

/-- Settles O25: the two kinds of table word in terms of `crc`, the range check, and the row's reserved bits. -/
theorem tblReadEmitsTheTableWord : Obligations.TblReadEmitsTheTableWord := by
  refine ⟨?slice, ?roll, fun s idx outOfRange => exec_tblRead_of_ge outOfRange s,
    fun s c op => issue_of_op_tblRead op s, fun s => ⟨?first, ?lastSlice, ?firstRoll, ?lastRoll⟩, ?vector⟩
  case slice => exact fun s idx slice => exec_tblRead_of_word (by omega) (memRead_slice_eq_crc _ _ slice)
  case roll => exact fun s idx roll inRange => exec_tblRead_of_word inRange (memRead_roll_eq_crc _ _ roll)
  case first => exact exec_tblRead_of_word (by decide) ((memRead_of_lt _ _ (by decide)).trans (by decide))
  case lastSlice =>
    exact exec_tblRead_of_word (by decide) ((memRead_of_lt _ _ (by decide)).trans (by decide +kernel))
  case firstRoll => exact exec_tblRead_of_word (by decide) ((memRead_of_ge _ _ (by decide)).trans (rollEntry_zero _))
  case lastRoll =>
    intro width
    refine exec_tblRead_of_word (by decide) ((memRead_of_ge _ _ (by decide)).trans ?_)
    rw [width]
    decide +kernel
  case vector =>
    intro s rest waiting
    have issued := issue_of_op_tblRead (c := 0x030000000000000001#72) (by decide) (s.withCmds rest)
    rw [if_pos (by decide)] at issued
    have answer : exec (.tblRead 1#12) (s.withCmds rest) = _ :=
      exec_tblRead_of_word (v := 0x77073096#32) (by decide) ((memRead_of_lt _ _ (by decide)).trans (by decide))
    exact ⟨_, (step_of_cmds waiting).trans (issued.trans answer), List.map_append⟩

/-- Settles O2: the model's eight bit steps are the fold. -/
theorem byteStepTakesBitsLowestFirst : Obligations.ByteStepTakesBitsLowestFirst :=
  ⟨updateByte_eq_foldl, by decide +kernel⟩

end Sys2Proof.Machine

/-! ## Proofs of the batched family: the byte loop and the short inputs

SUPPORT. A byte equal to the low byte of `r` is absorbed without feedback (`updateByte_byteOf_zero`); with linearity,
`r` enters a sequence through its first four bytes (`crc_cons_four`), and what is left is one slice entry per byte
(`crc_zero_cons`). A word built by `encode` decodes to its command, so running words is running their commands. -/

namespace Sys2Proof

/-! ### The word of a command decodes to it -/

theorem encode_fillsItsRow (i : Instr) : Laws.EncodeFillsItsRow.Statement i := by
  cases i with
  | nop => exact Laws.EncodeFillsItsRow.nop
  | rdreg reg => exact Laws.EncodeFillsItsRow.rdreg reg
  | wrreg reg val => exact Laws.EncodeFillsItsRow.wrreg reg val
  | tblRead idx => exact Laws.EncodeFillsItsRow.tblRead idx
  | crcByte b0 => exact Laws.EncodeFillsItsRow.crcByte b0
  | crcSlice4 b0 b1 b2 b3 => exact Laws.EncodeFillsItsRow.crcSlice4 b0 b1 b2 b3
  | crcSlice8 b0 b1 b2 b3 b4 b5 b6 b7 => exact Laws.EncodeFillsItsRow.crcSlice8 b0 b1 b2 b3 b4 b5 b6 b7
  | rollStep inb outb => exact Laws.EncodeFillsItsRow.rollStep inb outb
  | scanByte b0 => exact Laws.EncodeFillsItsRow.scanByte b0
  | scanEnd => exact Laws.EncodeFillsItsRow.scanEnd

theorem minSlice_le_width {sm : SliceMax} {i : Instr} (present : i.wellFormed sm = true) :
    i.mnemonic.minSlice ≤ sm.width := by
  cases i with
  | crcSlice4 b0 b1 b2 b3 => exact of_decide_eq_true present
  | crcSlice8 b0 b1 b2 b3 b4 b5 b6 b7 => exact (of_decide_eq_true present).ge
  | nop | rdreg | wrreg | tblRead | crcByte | rollStep | scanByte | scanEnd => exact Machine.one_le_width sm

/-- A field of `ARG` is the field of the word at the same bits (rule R70). -/
theorem argOf_extractLsb' (c : U72) {start n : Nat} (h : start + n ≤ 64) :
    (argOf c).extractLsb' start n = c.extractLsb' start n := by
  apply BitVec.eq_of_getLsbD_eq
  intro j hj
  simp [argOf, hj, show start + j < 64 by omega]

/-- Reading a command's fields from its word gives the command (rules R71, R82). -/
theorem read_encode (i : Instr) : i.mnemonic.read (argOf (encode i)) = i := by
  cases i with
  | nop | scanEnd => rfl
  | rdreg | wrreg | tblRead | crcByte | crcSlice4 | crcSlice8 | rollStep | scanByte =>
    simp (disch := decide) only [Instr.mnemonic, Mnemonic.read, lane, encode, argOf_extractLsb',
      BitVec.extractLsb'_append_eq_of_le, BitVec.extractLsb'_append_eq_right, Nat.reduceMul, Nat.reduceSub]

theorem decode_encode {sm : SliceMax} {i : Instr} (present : i.wellFormed sm = true) :
    decode sm (encode i) = .ok i := by
  obtain ⟨op, clear⟩ := encode_fillsItsRow i
  have row : Mnemonic.Selects sm i.mnemonic (encode i) :=
    (Mnemonic.selects_iff ..).mpr ⟨minSlice_le_width present, op, clear⟩
  rw [decode_of_selects row, read_encode]

namespace Machine

/-! ### Running the words of a command sequence -/

@[simp] theorem issueAll_wordsOf_nil (s : State) : issueAll (wordsOf []) s = .next s := rfl

theorem issue_encode {s : State} {i : Instr} (present : i.wellFormed s.params.sliceMax = true) :
    issue (encode i) s = exec i s := issue_of_decode (decode_encode present)

theorem issueAll_wordsOf_cons {s t : State} {i : Instr} (present : i.wellFormed s.params.sliceMax = true)
    (runs : exec i s = .next t) (is : List Instr) : issueAll (wordsOf (i :: is)) s = issueAll (wordsOf is) t := by
  simp only [wordsOf, List.map_cons, issueAll, issue_encode present, runs]

/-! ### Bytes of a word -/

@[simp] theorem byteOf_xor (a b : U32) (k : Nat) : byteOf (a ^^^ b) k = byteOf a k ^^^ byteOf b k :=
  BitVec.extractLsb'_xor

@[simp] theorem byteOf_zext32_zero (b : U8) : byteOf (zext32 b) 0 = b := by
  apply BitVec.eq_of_getLsbD_eq
  intro j hj
  simp [byteOf, zext32, hj, show j < 32 by omega]

@[simp] theorem byteOf_le32 (b0 b1 b2 b3 : U8) :
    byteOf (le32 b0 b1 b2 b3) 0 = b0 ∧ byteOf (le32 b0 b1 b2 b3) 1 = b1 ∧
    byteOf (le32 b0 b1 b2 b3) 2 = b2 ∧ byteOf (le32 b0 b1 b2 b3) 3 = b3 := by
  simp (disch := decide) only [byteOf, le32, BitVec.extractLsb'_append_eq_of_le, BitVec.extractLsb'_append_eq_right,
    BitVec.extractLsb'_eq_self, Nat.reduceMul, Nat.reduceSub, and_self]

theorem byteOf_ushiftRight (r : U32) (k : Nat) : byteOf (r >>> (8 * k)) 0 = byteOf r k := by
  apply BitVec.eq_of_getLsbD_eq
  intro j hj
  simp [byteOf]

/-! ### A remainder enters through its own bytes -/

/-- A bit equal to bit 0 of the remainder gives no feedback (rule R100). -/
theorem updateBit_getLsbD (r : U32) (j : Nat) : updateBit (r >>> j) (r.getLsbD j) = r >>> (j + 1) := by
  simp [updateBit, BitVec.shiftRight_add]

/-- A byte equal to the low byte of the remainder shifts it out. -/
theorem updateByte_byteOf_zero (r : U32) : updateByte r (byteOf r 0) = r >>> 8 := by
  have bit (j : Nat) (h : j < 8) : (byteOf r 0).getLsbD j = r.getLsbD j := by simp [byteOf, h]
  have first : updateBit r (r.getLsbD 0) = r >>> 1 := updateBit_getLsbD r 0
  simp (disch := decide) only [updateByte, bit, first, updateBit_getLsbD]

theorem updateByte_ushiftRight (r : U32) (k : Nat) :
    updateByte (r >>> (8 * k)) (byteOf r k) = r >>> (8 * (k + 1)) := by
  rw [← byteOf_ushiftRight, updateByte_byteOf_zero, ← BitVec.shiftRight_add, Nat.mul_succ]

@[simp] theorem crc_nil (r : U32) : crc r [] = r := rfl

/-- The four bytes of a remainder cancel it. -/
theorem crc_bytes_self (r : U32) : crc r [byteOf r 0, byteOf r 1, byteOf r 2, byteOf r 3] = 0#32 := by
  simp only [crc]
  rw [updateByte_byteOf_zero, updateByte_ushiftRight r 1, updateByte_ushiftRight r 2, updateByte_ushiftRight r 3]
  exact BitVec.ushiftRight_eq_zero (Nat.le_refl 32)

/-- `crc` is linear over XOR (rule R106). -/
theorem crc_xor (r1 r2 : U32) {d1 d2 : List U8} (length : d1.length = d2.length) :
    crc (r1 ^^^ r2) (List.zipWith (fun x y => x ^^^ y) d1 d2) = crc r1 d1 ^^^ crc r2 d2 := by
  induction d1 generalizing r1 r2 d2 with
  | nil =>
    obtain rfl := List.length_eq_zero_iff.mp length.symm
    rfl
  | cons x d1 ih =>
    obtain ⟨y, d2, rfl⟩ := List.exists_cons_of_length_eq_add_one length.symm
    rw [List.zipWith_cons_cons, crc, updateByte_xor]
    exact ih _ _ (Nat.succ.inj length)

theorem zipWith_replicate_zero_xor (d : List U8) :
    List.zipWith (fun x y => x ^^^ y) (List.replicate d.length 0#8) d = d := by
  induction d with
  | nil => rfl
  | cons x d ih => simp [List.replicate_succ, ih]

/-- The remainder and the data contribute separately (rule R106). -/
theorem crc_eq_xor (r : U32) (d : List U8) : crc r d = crc r (List.replicate d.length 0#8) ^^^ crc 0#32 d := by
  have linear := crc_xor r 0#32 (d1 := List.replicate d.length 0#8) (d2 := d) List.length_replicate
  rwa [zipWith_replicate_zero_xor, BitVec.xor_zero] at linear

theorem xor_xor_cancel_left {n : Nat} (p b : BitVec n) : p ^^^ (p ^^^ b) = b := by
  rw [← BitVec.xor_assoc, BitVec.xor_self, BitVec.zero_xor]

/-- `crc` takes in the remainder with the first four bytes (rule R132). -/
theorem crc_cons_four (r : U32) (b0 b1 b2 b3 : U8) (rest : List U8) :
    crc r (b0 :: b1 :: b2 :: b3 :: rest) =
      crc 0#32 ((byteOf r 0 ^^^ b0) :: (byteOf r 1 ^^^ b1) :: (byteOf r 2 ^^^ b2) :: (byteOf r 3 ^^^ b3) :: rest) := by
  have four : crc r [b0, b1, b2, b3] =
      crc 0#32 [byteOf r 0 ^^^ b0, byteOf r 1 ^^^ b1, byteOf r 2 ^^^ b2, byteOf r 3 ^^^ b3] := by
    have linear := crc_xor r 0#32 (d1 := [byteOf r 0, byteOf r 1, byteOf r 2, byteOf r 3])
      (d2 := [byteOf r 0 ^^^ b0, byteOf r 1 ^^^ b1, byteOf r 2 ^^^ b2, byteOf r 3 ^^^ b3]) rfl
    simpa [crc_bytes_self, xor_xor_cancel_left] using linear
  exact congrArg (crc · rest) four

/-! ### The table steps are the byte loop -/

/-- A byte in front of a sequence adds its slice entry (rules R106, R111). -/
theorem crc_zero_cons (b : U8) (rest : List U8) :
    crc 0#32 (b :: rest) = sliceEntry rest.length b ^^^ crc 0#32 rest := by
  rw [sliceEntry_eq_crc]
  exact crc_eq_xor (updateByte 0#32 b) rest

theorem stepByTable_eq_crc (w : Nat) (r : U32) (b0 : U8) : stepByTable w r b0 = crc r [b0] := by
  have linear := updateByte_xor r 0#32 (byteOf r 0) (byteOf r 0 ^^^ b0)
  rw [BitVec.xor_zero, xor_xor_cancel_left, updateByte_byteOf_zero] at linear
  simp only [stepByTable, groupRead_eq_sliceEntry, byteOf_xor, byteOf_zext32_zero]
  exact linear.symm

theorem stepByFour_eq_crc (w : Nat) (r : U32) (b0 b1 b2 b3 : U8) :
    stepByFour w r (le32 b0 b1 b2 b3) = crc r [b0, b1, b2, b3] := by
  rw [crc_cons_four]
  simp [stepByFour, crc_zero_cons, groupRead_eq_sliceEntry, BitVec.xor_assoc]

theorem stepByEight_eq_crc (w : Nat) (r : U32) (b0 b1 b2 b3 b4 b5 b6 b7 : U8) :
    stepByEight w r (le32 b0 b1 b2 b3) (le32 b4 b5 b6 b7) = crc r [b0, b1, b2, b3, b4, b5, b6, b7] := by
  rw [crc_cons_four]
  simp [stepByEight, crc_zero_cons, groupRead_eq_sliceEntry, BitVec.xor_assoc]

/-! ### The batched commands -/

/-- A batched command that exists replaces `REM` by `crc` of its bytes (rule R130). -/
theorem exec_of_batchedData {s : State} {i : Instr} {bytes : List U8}
    (present : i.wellFormed s.params.sliceMax = true) (data : batchedData i = some bytes) :
    exec i s = .next (s.withRem (crc s.rem bytes)) := by
  cases i with
  | crcByte b0 =>
    obtain rfl := Option.some.inj data
    rw [← stepByTable_eq_crc s.params.w]
    rfl
  | crcSlice4 b0 b1 b2 b3 =>
    obtain rfl := Option.some.inj data
    rw [← stepByFour_eq_crc s.params.w]
    exact if_neg (Nat.not_lt.mpr (of_decide_eq_true present))
  | crcSlice8 b0 b1 b2 b3 b4 b5 b6 b7 =>
    obtain rfl := Option.some.inj data
    rw [← stepByEight_eq_crc s.params.w]
    exact if_neg (Nat.not_lt.mpr (of_decide_eq_true present).ge)
  | nop | rdreg | wrreg | tblRead | rollStep | scanByte | scanEnd => cases data

/-- Every split of a sequence leaves `crc` of the sequence (rule R134). -/
theorem issueAll_of_splits {sm : SliceMax} {data : List U8} {is : List Instr} (split : Splits sm data is) (s : State)
    (hs : s.params.sliceMax = sm) : issueAll (wordsOf is) s = .next (s.withRem (crc s.rem data)) := by
  induction split generalizing s with
  | nil => rfl
  | cons i bytes rest is present data _ ih =>
    subst hs
    calc issueAll (wordsOf (i :: is)) s
      _ = issueAll (wordsOf is) (s.withRem (crc s.rem bytes)) :=
        issueAll_wordsOf_cons present (exec_of_batchedData present data) is
      _ = .next (s.withRem (crc (crc s.rem bytes) rest)) := ih _ rfl
      _ = .next (s.withRem (crc s.rem (bytes ++ rest))) := by rw [crc_append]

/-! ### Short inputs -/

theorem sliceBy4_of_length_lt {data : List U8} (short : data.length < 4) : sliceBy4 data = data.map .crcByte := by
  unfold sliceBy4
  split
  · simp only [List.length_cons] at short
    omega
  · rfl

theorem sliceBy8_of_length_lt {data : List U8} (short : data.length < 8) : sliceBy8 data = data.map .crcByte := by
  unfold sliceBy8
  split
  · simp only [List.length_cons] at short
    omega
  · rfl

theorem dataCommands_of_length_lt {n : SliceMax} {data : List U8} (short : data.length < n.width) :
    dataCommands n data = data.map .crcByte := by
  cases n with
  | one => rfl
  | four => exact sliceBy4_of_length_lt short
  | eight => exact sliceBy8_of_length_lt short

theorem dataCommands_singleton (n : SliceMax) (b : U8) : dataCommands n [b] = [.crcByte b] := by
  cases n <;> rfl

/-- Loading `REM` and reading it back delivers the value loaded. -/
theorem issueAll_crcInit_crcGet (init : U32) (s : State) :
    issueAll (wordsOf [crcInit init, crcGet]) s = .next (emit (.rsp init) (s.withRem init)) := by
  have load : exec (crcInit init) s = .next (s.withRem init) := rfl
  have read : exec crcGet (s.withRem init) = .next (emit (.rsp init) (s.withRem init)) := exec_rdreg_number .rem _
  rw [issueAll_wordsOf_cons rfl load, issueAll_wordsOf_cons rfl read, issueAll_wordsOf_nil]

/-! ### The obligations -/

/-- Settles O27: the table steps are the byte loop, and a split is run command by command. -/
theorem batchedCommandsComputeTheByteLoop : Obligations.BatchedCommandsComputeTheByteLoop :=
  ⟨fun _ _ => exec_of_batchedData rfl rfl,
    fun _ _ _ _ _ present => exec_of_batchedData (decide_eq_true present) rfl,
    fun _ _ _ _ _ _ _ _ _ present => exec_of_batchedData (decide_eq_true present) rfl,
    fun _ _ _ split => issueAll_of_splits split _ rfl⟩

/-- Settles O31: data shorter than a group is issued byte by byte, and empty data leaves a load and a read. -/
theorem shortInputsUseNoSliceCommand : Obligations.ShortInputsUseNoSliceCommand := by
  have empty (n : SliceMax) (init : U32) : crc32Commands n init [] = [crcInit init, crcGet] := by
    cases n <;> rfl
  refine ⟨empty, fun s n init => ?delivers, fun n init b => ?single, fun n init data short => ?short⟩
  case delivers => rw [empty, issueAll_crcInit_crcGet]
  case single => rw [crc32Commands, dataCommands_singleton]; rfl
  case short => rw [crc32Commands, dataCommands_of_length_lt short]; rfl

end Machine

end Sys2Proof

/-! ## Proofs of the rolling family: `ROLL_STEP` slides the window

SUPPORT. A window's checksum is the outgoing byte's rolling entry XOR the checksum of the bytes that stay
(`crc_window_cancel`), so cancelling that entry and taking in the incoming byte gives the checksum of the new window
(`rollUpdate_window`). The corner cases of rule R160 are windows of equal bytes. -/

namespace Sys2Proof.Machine

/-! ### The rolling update -/

/-- The two lookups of the rolling update as `crc` and a byte step (rules R113, R160). -/
theorem rollUpdate_eq_crc (w : Nat) (sum : U32) (inb outb : U8) :
    rollUpdate w sum inb outb = updateByte (sum ^^^ crc 0#32 (outb :: List.replicate (w - 1) 0#8)) inb := by
  rw [rollUpdate, rollRead_eq_rollEntry, rollEntry_eq_crc]

/-- Cancelling the outgoing byte leaves the checksum of the bytes that stay (rule R162). -/
theorem crc_window_cancel (outb : U8) (mid : List U8) :
    crc 0#32 (outb :: mid) ^^^ crc 0#32 (outb :: List.replicate mid.length 0#8) = crc 0#32 mid := by
  rw [crc_zero_cons, ← sliceEntry_eq_crc, xor_xor_cancel]

/-- The rolling update is the checksum of the new window from scratch (rule R161). -/
theorem rollUpdate_window {w : Nat} {mid : List U8} (width : mid.length + 1 = w) (inb outb : U8) :
    rollUpdate w (crc 0#32 (outb :: mid)) inb outb = crc 0#32 (mid ++ [inb]) := by
  have stays : w - 1 = mid.length := by omega
  rw [rollUpdate_eq_crc, stays, crc_window_cancel, crc_append]
  rfl

/-- A window of equal bytes rolls to itself. -/
theorem rollUpdate_replicate {w : Nat} (pos : 0 < w) (b : U8) :
    rollUpdate w (crc 0#32 (List.replicate w b)) b b = crc 0#32 (List.replicate w b) := by
  obtain ⟨n, rfl⟩ := Nat.exists_eq_add_one_of_ne_zero pos.ne'
  calc rollUpdate (n + 1) (crc 0#32 (List.replicate (n + 1) b)) b b
    _ = crc 0#32 (List.replicate n b ++ [b]) := rollUpdate_window (by simp) b b
    _ = crc 0#32 (List.replicate (n + 1) b) := by rw [List.replicate_succ']

/-- With nothing to cancel, the rolling update is the byte step of `CRC_BYTE` (rule R160). -/
theorem rollUpdate_outb_zero (w : Nat) (sum : U32) (inb : U8) :
    rollUpdate w sum inb 0#8 = stepByTable w sum inb := by
  rw [rollUpdate, rollRead_eq_rollEntry, rollEntry_zero, BitVec.xor_zero, stepByTable_eq_crc]
  rfl

/-! ### The command `ROLL_STEP` -/

theorem exec_rollStep (inb outb : U8) (s : State) :
    exec (.rollStep inb outb) s = .next (s.withRem (rollUpdate s.params.w s.rem inb outb)) := rfl

theorem exec_rollStep_of_value {s : State} {w : Nat} {r v : U32} {inb outb : U8} (width : s.params.w = w)
    (rem : s.rem = r) (value : rollUpdate w r inb outb = v) :
    exec (.rollStep inb outb) s = .next (s.withRem v) := by
  rw [exec_rollStep, width, rem, value]

theorem exec_rollStep_replicate {s : State} {b : U8} (rem : s.rem = crc 0#32 (List.replicate s.params.w b)) :
    exec (.rollStep b b) s = .next s := by
  rw [exec_rollStep_of_value rfl rem (rollUpdate_replicate s.params.w_pos b), ← rem]
  rfl

theorem issue_of_op_rollStep {c : U72} (op : opOf c = 0x20#8) (s : State) :
    issue c s = if (argOf c).extractLsb' 16 48 = 0#48
      then exec (.rollStep ((argOf c).extractLsb' 0 8) ((argOf c).extractLsb' 8 8)) s
      else .next (raise .illegalCommand 0x20#8 s) := by
  have reserved : argOf c &&& Mnemonic.rollStep.format.reserved = 0#64 ↔ (argOf c).extractLsb' 16 48 = 0#48 :=
    and_allOnes_shiftLeft_eq_zero_iff (argOf c) 16
  rw [issue_of_op (m := .rollStep) op (one_le_width _)]
  simp only [reserved]
  rfl

/-! ### The obligations -/

/-- Settles O32: `REM` is the checksum of a window whose first byte is `outb`. -/
theorem rollStepEqualsFromScratch : Obligations.RollStepEqualsFromScratch :=
  fun _ outb inb _ width rem => exec_rollStep_of_value rfl rem (rollUpdate_window width inb outb)

/-- Settles O33: the formula is `rollUpdate` with its lookup written as `crc`; two corner cases are windows of equal
bytes, and the third has nothing to cancel. -/
theorem rollStepCancelsThenUpdates : Obligations.RollStepCancelsThenUpdates := by
  refine ⟨fun s inb outb => ⟨_, rfl, ?formula, ?tableForm⟩, fun s c op => issue_of_op_rollStep op s, ?zeroWindow,
    fun s b => exec_rollStep_replicate, ?nothingToCancel, ?ones, ?equalBytes, ?vector⟩
  case formula => rw [exec_rollStep, rollUpdate_eq_crc]
  case tableForm => exact (stepByTable_eq_crc ..).symm
  case zeroWindow =>
    intro s rem
    exact exec_rollStep_replicate (rem.trans (crc_zero_replicate _).symm)
  case nothingToCancel =>
    intro s inb
    rw [exec_rollStep, rollUpdate_outb_zero]
    rfl
  case ones => exact fun s width rem => exec_rollStep_of_value width rem (by decide +kernel)
  case equalBytes => exact fun s width rem => exec_rollStep_of_value width rem (by decide +kernel)
  case vector =>
    intro s rest width rem waiting
    have issued := issue_of_op_rollStep (c := 0x200000000000004142#72) (by decide) (s.withCmds rest)
    rw [if_pos (by decide)] at issued
    have answer : exec (.rollStep 0x42#8 0x41#8) (s.withCmds rest) = _ :=
      exec_rollStep_of_value (v := 0xCEB64DE4#32) width rem (by decide +kernel)
    exact ⟨_, (step_of_cmds waiting).trans (issued.trans answer), rfl⟩

end Sys2Proof.Machine

/-! ## Proofs of the match-scan family: reported windows, the window record, its end

SUPPORT. In every state a stream explains, the checksum `SCAN_BYTE` computes is that of the last `W` bytes of the longer
stream, in the fill and in the slide phase (`ScanRel.scanChecksum_eq_crc`), so a completed window is reported and
remembered under its own checksum (`ScanRel.exec_scanByte_window`). The reported offsets are those of equal checksum at
most `HIST_DEPTH` back (`matchPair_mem_matchRecords_iff`). -/

namespace Sys2Proof.Machine

/-! ### The parts of `SCAN_BYTE`, further fields -/

@[simp] theorem scanShift_scanSum (b0 : U8) (s : State) : (scanShift b0 s).scanSum = scanChecksum b0 s := rfl
@[simp] theorem scanShift_hist (b0 : U8) (s : State) : (scanShift b0 s).hist = s.hist := rfl
@[simp] theorem scanShift_out (b0 : U8) (s : State) : (scanShift b0 s).out = s.out := rfl

@[simp] theorem completeWindow_scanSum (o : Nat) (v : U32) (s : State) :
    (completeWindow o v s).scanSum = s.scanSum := rfl
@[simp] theorem completeWindow_hist (o : Nat) (v : U32) (s : State) :
    (completeWindow o v s).hist = s.hist.update s.params.histDepth o v := rfl
@[simp] theorem completeWindow_out (o : Nat) (v : U32) (s : State) :
    (completeWindow o v s).out = s.out ++ matchRecords s.hist s.params.histDepth o v := rfl

/-! ### The reported offsets -/

/-- An offset is at least `lo` exactly when the window at `o` is at most `HIST_DEPTH` after it. -/
theorem histLow_le_iff (depth o a : Nat) : histLow depth o ≤ a ↔ o ≤ a + depth := by
  unfold histLow
  split <;> omega

theorem mem_equalOffsets_histLow_iff {h : Hist} (wf : h.Wf) (depth o : Nat) (v : U32) (a : Nat) :
    a ∈ h.equalOffsets (histLow depth o) o v ↔ o ≤ a + depth ∧ a < o ∧ h.lookup a = some v := by
  rw [Hist.mem_equalOffsets wf, histLow_le_iff]

/-- Offsets below 2^32 are told apart by the 32 bits a record has for them (rule R73). -/
theorem matchPair_mem_matchRecords_iff {h : Hist} (wf : h.Wf) (depth : Nat) {a o : Nat} (lt : a < o) (fits : o < 2 ^ 32)
    (v : U32) :
    Record.matchPair (BitVec.ofNat 32 a) (BitVec.ofNat 32 o) ∈ matchRecords h depth o v ↔
      o ≤ a + depth ∧ h.lookup a = some v := by
  have reported : Record.matchPair (BitVec.ofNat 32 a) (BitVec.ofNat 32 o) ∈ matchRecords h depth o v ↔
      a ∈ h.equalOffsets (histLow depth o) o v := by
    constructor
    · intro mem
      obtain ⟨x, hx, eq⟩ := List.mem_map.mp mem
      have below : x < o := ((mem_equalOffsets_histLow_iff wf ..).mp hx).2.1
      have same : x % 2 ^ 32 = a % 2 ^ 32 := by simpa using congrArg BitVec.toNat (Record.matchPair.inj eq).1
      rw [Nat.mod_eq_of_lt (by omega), Nat.mod_eq_of_lt (by omega)] at same
      exact same ▸ hx
    · exact fun mem => List.mem_map.mpr ⟨a, mem, rfl⟩
  rw [reported, mem_equalOffsets_histLow_iff wf]
  tauto

/-! ### The size of `HIST` -/

/-- A history whose offsets lie in a range of `n` holds at most `n` entries. -/
theorem Hist.length_le {h : Hist} (wf : h.Wf) {lo n : Nat}
    (range : ∀ a, (h.lookup a).isSome = true → lo ≤ a ∧ a < lo + n) : h.length ≤ n := by
  have nodup : (h.map Prod.fst).Nodup := List.pairwise_map.mpr (wf.imp Nat.ne_of_lt)
  have subset : h.map Prod.fst ⊆ List.range' lo n := by
    intro a mem
    obtain ⟨e, held, rfl⟩ := List.mem_map.mp mem
    have found : h.lookup e.1 = some e.2 := (Hist.lookup_eq_some_iff wf ..).mpr held
    exact List.mem_range'_1.mpr (range e.1 (by simp [found]))
  simpa using (List.subperm_of_subset nodup subset).length_le

theorem Hist.eq_nil_of_lookup {h : Hist} (wf : h.Wf) (empty : ∀ a, h.lookup a = none) : h = [] :=
  List.eq_nil_of_length_eq_zero (Nat.le_zero.mp (Hist.length_le (lo := 0) wf (by simp [empty])))

/-- The update leaves the `depth` most recent offsets up to `o` (rule R188). -/
theorem Hist.update_range {h : Hist} (wf : h.Wf) {depth o : Nat} (pos : 0 < depth)
    (range : ∀ a, (h.lookup a).isSome = true → o - depth ≤ a ∧ a < o) (v : U32) (a : Nat)
    (defined : ((h.update depth o v).lookup a).isSome = true) : o + 1 - depth ≤ a ∧ a < o + 1 := by
  rw [Hist.lookup_update wf pos] at defined
  split at defined
  · omega
  · split at defined
    · cases defined
    · have := range a defined
      omega

/-! ### Windows of a stream -/

/-- With the window at `o` still to be counted, the windows before it are `o` many (rule R33). -/
theorem windowCount_eq {w n o : Nat} (offset : o + w = n + 1) : windowCount w n = o := by
  unfold windowCount
  split <;> omega

/-- A window that was complete before more bytes came keeps its checksum. -/
theorem windowSum_append {w a : Nat} {stream : List U8} (complete : a + w ≤ stream.length) (more : List U8) :
    windowSum w (stream ++ more) a = windowSum w stream a := by
  unfold windowSum
  rw [List.drop_append_of_le_length (by omega), List.take_append_of_le_length (by simp; omega)]

/-- The last window of a stream is all that is left from its offset on. -/
theorem windowSum_last {w a : Nat} {stream : List U8} (last : stream.length ≤ a + w) :
    windowSum w stream a = crc 0#32 (stream.drop a) := by
  unfold windowSum
  rw [List.take_of_length_le (by simp; omega)]

namespace ScanRel

variable {stream : List U8} {s : State} {o : Nat}

theorem length_lt (rel : ScanRel stream s) : stream.length < 2 ^ 32 := rel.pos ▸ s.scanPos.isLt

theorem lookup_isSome_iff (rel : ScanRel stream s) (a : Nat) :
    (Hist.lookup s.hist a).isSome = true ↔
      windowCount s.params.w stream.length - s.params.histDepth ≤ a ∧ a < windowCount s.params.w stream.length := by
  rw [rel.hist a]
  split <;> simp_all

/-- In the slide phase, the slot about to be overwritten holds the byte that leaves the window (rule R186). -/
theorem wbufRead_outgoing (rel : ScanRel stream s) (full : s.params.w ≤ stream.length)
    (first : stream.length - s.params.w < stream.length) :
    wbufRead s.wbuf (slotOf s.params.w stream.length) = stream[stream.length - s.params.w] := by
  have slot : slotOf s.params.w stream.length = slotOf s.params.w (stream.length - s.params.w) :=
    Nat.mod_eq_sub_mod full
  rw [slot]
  exact wbufRead_of_getElem? ((rel.buf _ le_rfl first).trans (List.getElem?_eq_getElem first))

/-- After `SCAN_BYTE b0`, `SCAN_SUM` is the checksum of the last `W` bytes of the longer stream, or of all of it (rules
R185, R186). -/
theorem scanChecksum_eq_crc (rel : ScanRel stream s) (b0 : U8) :
    scanChecksum b0 s = crc 0#32 ((stream ++ [b0]).drop (stream.length + 1 - s.params.w)) := by
  have wpos := s.params.w_pos
  unfold scanChecksum
  rw [rel.pos, rel.sum]
  split
  case isTrue fill =>
    rw [Nat.sub_eq_zero_of_le fill.le, Nat.sub_eq_zero_of_le fill, List.drop_zero, List.drop_zero, crc_append]
    rfl
  case isFalse slide =>
    have first : stream.length - s.params.w < stream.length := by omega
    have next : stream.length + 1 - s.params.w = stream.length - s.params.w + 1 := by omega
    rw [rel.wbufRead_outgoing (by omega) first, List.drop_eq_getElem_cons first, rollUpdate_window (by simp; omega),
      next, List.drop_append_of_le_length (by omega)]

/-- `SCAN_BYTE` completes the window of the last `W` bytes of the longer stream. -/
theorem exec_scanByte_window (rel : ScanRel stream s) (notLast : s.scanPos ≠ 0xFFFFFFFF#32)
    (offset : o + s.params.w = stream.length + 1) (b0 : U8) :
    exec (.scanByte b0) s = .next (completeWindow o (scanChecksum b0 s) (scanShift b0 s)) := by
  obtain rfl : o = s.scanPos.toNat + 1 - s.params.w := by rw [rel.pos]; omega
  exact execScanByte_window notLast (by rw [rel.pos]; omega) b0

theorem scanChecksum_eq_windowSum (rel : ScanRel stream s) (offset : o + s.params.w = stream.length + 1) (b0 : U8) :
    scanChecksum b0 s = windowSum s.params.w (stream ++ [b0]) o := by
  rw [rel.scanChecksum_eq_crc, windowSum_last (by simp; omega), ← offset, Nat.add_sub_cancel]

/-- When the window at `o` is compared, `HIST` is defined on the `HIST_DEPTH` offsets before `o` (rule R188). -/
theorem lookup_isSome_iff_of_offset (rel : ScanRel stream s) (offset : o + s.params.w = stream.length + 1) (a : Nat) :
    (Hist.lookup s.hist a).isSome = true ↔ o - s.params.histDepth ≤ a ∧ a < o := by
  rw [rel.lookup_isSome_iff, windowCount_eq offset]

/-- Of the windows before the one at `o`, those at most `HIST_DEPTH` back that have its checksum are reported. -/
theorem matchPair_mem_iff (rel : ScanRel stream s) (offset : o + s.params.w = stream.length + 1) (b0 : U8) {a : Nat}
    (lt : a < o) :
    Record.matchPair (BitVec.ofNat 32 a) (BitVec.ofNat 32 o) ∈
        matchRecords s.hist s.params.histDepth o (scanChecksum b0 s) ↔
      o - a ≤ s.params.histDepth ∧
        windowSum s.params.w (stream ++ [b0]) a = windowSum s.params.w (stream ++ [b0]) o := by
  have wpos := s.params.w_pos
  have short := rel.length_lt
  rw [matchPair_mem_matchRecords_iff rel.histWf _ lt (by omega), rel.hist a, windowCount_eq offset,
    ← rel.scanChecksum_eq_windowSum offset b0, windowSum_append (by omega)]
  constructor
  · rintro ⟨near, found⟩
    rw [if_pos (by omega)] at found
    exact ⟨by omega, Option.some.inj found⟩
  · rintro ⟨near, same⟩
    rw [if_pos (by omega), same]
    exact ⟨by omega, rfl⟩

/-- A cleared scan unit is in its reset state. -/
theorem cleared (rel : ScanRel [] s) :
    s.scanSum = 0#32 ∧ s.scanPos = 0#32 ∧ s.wbuf = wbufClear s.params.w ∧ s.hist = [] := by
  refine ⟨by simpa using rel.sum, BitVec.eq_of_toNat_eq rel.pos, ?wbuf,
    Hist.eq_nil_of_lookup rel.histWf fun a => ?hist⟩
  case wbuf =>
    refine List.eq_replicate_iff.mpr ⟨rel.bufLength, fun b mem => ?_⟩
    obtain ⟨k, hk, rfl⟩ := List.mem_iff_getElem.mp mem
    exact (List.getElem_eq_iff hk).mpr (rel.bufClear k (Nat.zero_le k) (rel.bufLength ▸ hk))
  case hist =>
    have noWindow : windowCount s.params.w 0 = 0 := if_neg s.params.w_pos.not_ge
    rw [rel.hist a, List.length_nil, noWindow, if_neg (by omega)]

theorem execScanEnd_of_cleared (rel : ScanRel [] s) : execScanEnd s = .next s := by
  obtain ⟨sum, pos, wbuf, hist⟩ := rel.cleared
  rw [execScanEnd_eq]
  exact congrArg _
    (State.eq_of_fields rfl rfl sum.symm pos.symm rfl rfl wbuf.symm hist.symm rfl rfl rfl)

end ScanRel

/-! ### `SCAN_END` and the read of `STATUS` after it -/

/-- What the word of a row without operands does: its command, or `IllegalCommand` where `ARG` is not 0. -/
theorem issue_of_op_noOperands {s : State} {c : U72} {m : Mnemonic} (format : m.format = .z) (op : opOf c = m.op)
    (present : m.minSlice ≤ s.params.sliceMax.width) :
    issue c s = if argOf c = 0#64 then exec (m.read (argOf c)) s else .next (raise .illegalCommand m.op s) := by
  have all : Format.z.reserved = BitVec.allOnes 64 := by decide
  rw [issue_of_op op present, format, all, BitVec.and_allOnes]

theorem issue_of_op_scanEnd {c : U72} (op : opOf c = 0x31#8) (s : State) :
    issue c s = if argOf c = 0#64 then exec .scanEnd s else .next (raise .illegalCommand 0x31#8 s) :=
  issue_of_op_noOperands (m := .scanEnd) rfl op (one_le_width _)

/-- With no fault raised and no byte of a stream given, `STATUS` reads 0 (rules R30, R195). -/
theorem exec_rdreg_status_of_zero {s : State} (err : s.err = false) (cause : s.cause = 0#4) (pos : s.scanPos = 0#32) :
    exec (.rdreg 3#8) s = .next (s.withOut (s.out ++ [Record.rsp 0#32])) := by
  have zero : s.statusWord = 0#32 := by
    rw [State.statusWord, err, cause, State.wvalid_eq_false_of_scanPos_zero pos]
    rfl
  rw [← zero]
  exact exec_rdreg_number .status s

/-! ### The obligations -/

/-- Settles O36: the reported offsets are the comparison's, which rise; the premises put every entry of `HIST` below `o`
and in reach of it. -/
theorem everyEqualEarlierWindowIsReportedInRisingOrder :
    Obligations.EveryEqualEarlierWindowIsReportedInRisingOrder := by
  intro s b0 notLast complete wf range
  refine ⟨_, _, _, execScanByte_window notLast complete b0, rfl, rfl, Hist.equalOffsets_sorted wf _ _ _,
    fun a => ?equal, ?below, ?before, ?after⟩
  case equal =>
    rw [completeWindow_scanSum, scanShift_scanSum]
    constructor
    · intro mem
      obtain ⟨-, -, found⟩ := (Hist.mem_equalOffsets wf ..).mp mem
      exact found
    · intro found
      obtain ⟨below, near⟩ := range a _ found
      exact (mem_equalOffsets_histLow_iff wf ..).mpr ⟨near, below, found⟩
  case below =>
    intro a mem
    obtain ⟨-, below, -⟩ := (Hist.mem_equalOffsets wf ..).mp mem
    exact below
  case before => exact Option.eq_none_iff_forall_ne_some.mpr fun v found => (range _ v found).1.false
  case after =>
    rw [completeWindow_hist, scanShift_hist, scanShift_params, Hist.lookup_update wf s.params.histDepth_pos, if_pos rfl]
    rfl

/-- Settles O37: `HIST` and the update by their lookups, the sizes by the range of the offsets, and the reported pairs
by `ScanRel.matchPair_mem_iff`. -/
theorem historyKeepsTheMostRecentWindows : Obligations.HistoryKeepsTheMostRecentWindows := by
  intro stream s b0 rel notLast complete
  obtain ⟨o, offset⟩ : ∃ o, o + s.params.w = stream.length + 1 := ⟨_, Nat.sub_add_cancel complete⟩
  have wpos := s.params.w_pos
  have dpos := s.params.histDepth_pos
  have short := rel.length_lt
  have defined := rel.lookup_isSome_iff_of_offset offset
  have updated := Hist.lookup_update rel.histWf dpos (o := o) (scanChecksum b0 s)
  have range := Hist.update_range rel.histWf dpos (fun a => (defined a).mp) (scanChecksum b0 s)
  refine ⟨_, o, _, rel.exec_scanByte_window notLast offset b0, by omega, rfl, defined, ?entered,
    fun deep => ⟨?removed, (Nat.mod_eq_sub_mod deep).symm⟩, ?kept, ?size, ?newSize, ?reported, ?nothingRemoved⟩
  case entered => exact (updated o).trans (if_pos rfl)
  case removed => exact (updated _).trans ((if_neg (by omega)).trans (if_pos ⟨deep, rfl⟩))
  case kept => exact fun a ne stays => (updated a).trans ((if_neg ne).trans (if_neg stays))
  case size =>
    refine Hist.length_le rel.histWf (lo := o - s.params.histDepth) fun a found => ?_
    have := (defined a).mp found
    omega
  case newSize =>
    refine Hist.length_le (Hist.update_wf rel.histWf ..) (lo := o + 1 - s.params.histDepth) fun a found => ?_
    have := range a found
    omega
  case reported => exact fun a lt same => (rel.matchPair_mem_iff offset b0 lt).trans (and_iff_left same)
  case nothingRemoved =>
    intro deep a v found
    have below := ((defined a).mp (by simp [found])).2
    exact ((updated a).trans ((if_neg below.ne).trans (if_neg (by omega)))).trans found

/-- Settles O39: a fault keeps the scan unit, and the position bounds the length of a stream and so its windows. -/
theorem positionOverflowFaultsAndConsumesNothing : Obligations.PositionOverflowFaultsAndConsumesNothing := by
  refine ⟨fun s b0 last => ⟨execScanByte_overflow last b0, last, rfl, rfl, rfl, List.map_append⟩,
    fun s _ => ⟨_, execScanEnd_eq s, rfl⟩, fun stream s rel => ?bounds⟩
  have short := rel.length_lt
  refine ⟨by omega, fun a found => ?_⟩
  have below := ((rel.lookup_isSome_iff a).mp found).2
  unfold windowCount at below
  split at below <;> omega

/-- Settles O43: `SCAN_END` writes the reset values; a cleared scan unit holds them already. -/
theorem scanEndClearsTheScanUnit : Obligations.ScanEndClearsTheScanUnit := by
  refine ⟨fun s => ?clears, fun s c op => issue_of_op_scanEnd op s, ?atZero, ?vector⟩
  case clears =>
    have bytes (j : Nat) (h : j < s.params.w) : (wbufClear s.params.w)[j]? = some 0#8 := by simp [wbufClear, h]
    refine ⟨_, execScanEnd_eq s, rfl, rfl, bytes, List.length_replicate, fun _ => rfl,
      State.wvalid_eq_false_of_scanPos_zero rfl, ?_⟩
    simp [wbufClear]
  case atZero =>
    rintro s ⟨stream, rel⟩ atZero
    have length : stream.length = 0 := by rw [← rel.pos, atZero]; rfl
    obtain rfl := List.eq_nil_of_length_eq_zero length
    exact rel.execScanEnd_of_cleared
  case vector =>
    intro s rest waiting err cause
    have issued := issue_of_op_scanEnd (c := 0x310000000000000000#72) (by decide) (s.withCmds rest)
    rw [if_pos (by decide)] at issued
    exact ⟨_, (step_of_cmds waiting).trans (issued.trans (execScanEnd_eq _)),
      exec_rdreg_status_of_zero err cause rfl⟩

end Sys2Proof.Machine

/-! ## Proofs of the system family: `NOP`, `RDREG` and `WRREG`

SUPPORT. The reserved bits of the formats R and RW are the fields beside `reg` and `val`: from bit 0 up
(`and_setWidth_allOnes_eq_zero_iff`) and up to bit 63 (`and_allOnes_shiftLeft_eq_zero_iff`). So the word of each command
runs it or is illegal, and the register number then decides between a read or write and a fault. -/

namespace Sys2Proof.Machine

/-! ### The words of the system commands -/

/-- No bit below `n` is set: as a mask, and as a field. -/
theorem and_setWidth_allOnes_eq_zero_iff {w n : Nat} (le : n ≤ w) (x : BitVec w) :
    x &&& (BitVec.allOnes n).setWidth w = 0#w ↔ x.extractLsb' 0 n = 0#n := by
  have fits : 2 ^ n - 1 < 2 ^ w :=
    (Nat.sub_lt (Nat.two_pow_pos n) Nat.one_pos).trans_le (Nat.pow_le_pow_right two_pos le)
  simp [BitVec.toNat_eq, Nat.mod_eq_of_lt fits, Nat.and_two_pow_sub_one_eq_mod]

theorem issue_of_op_nop {c : U72} (op : opOf c = 0x00#8) (s : State) :
    issue c s = if argOf c = 0#64 then exec .nop s else .next (raise .illegalCommand 0x00#8 s) :=
  issue_of_op_noOperands (m := .nop) rfl op (one_le_width _)

theorem issue_of_op_rdreg {c : U72} (op : opOf c = 0x01#8) (s : State) :
    issue c s = if (argOf c).extractLsb' 0 32 = 0#32 ∧ (argOf c).extractLsb' 40 24 = 0#24
      then exec (.rdreg ((argOf c).extractLsb' 32 8)) s else .next (raise .illegalCommand 0x01#8 s) := by
  have mask : Mnemonic.rdreg.format.reserved = (BitVec.allOnes 32).setWidth 64 ||| BitVec.allOnes 64 <<< 40 := by decide
  have reserved : argOf c &&& Mnemonic.rdreg.format.reserved = 0#64 ↔
      (argOf c).extractLsb' 0 32 = 0#32 ∧ (argOf c).extractLsb' 40 24 = 0#24 := by
    rw [mask, BitVec.and_or_distrib_left, BitVec.or_eq_zero_iff, and_setWidth_allOnes_eq_zero_iff (by decide),
      and_allOnes_shiftLeft_eq_zero_iff]
  rw [issue_of_op (m := .rdreg) op (one_le_width _)]
  simp only [reserved]
  rfl

theorem issue_of_op_wrreg {c : U72} (op : opOf c = 0x02#8) (s : State) :
    issue c s = if (argOf c).extractLsb' 40 24 = 0#24
      then exec (.wrreg ((argOf c).extractLsb' 32 8) ((argOf c).extractLsb' 0 32)) s
      else .next (raise .illegalCommand 0x02#8 s) := by
  have reserved : argOf c &&& Mnemonic.wrreg.format.reserved = 0#64 ↔ (argOf c).extractLsb' 40 24 = 0#24 :=
    and_allOnes_shiftLeft_eq_zero_iff (argOf c) 40
  rw [issue_of_op (m := .wrreg) op (one_le_width _)]
  simp only [reserved]
  rfl

/-- The word of a command that every instance has runs it, with the word consumed. -/
theorem step_encode {s : State} {i : Instr} {rest : List U72} (waiting : s.cmds = encode i :: rest)
    (present : i.wellFormed s.params.sliceMax = true) : step s = exec i (s.withCmds rest) :=
  (step_of_cmds waiting).trans (issue_encode present)

/-! ### `RDREG` -/

theorem exec_rdreg_of_ge {reg : U8} (unnamed : 4 ≤ reg.toNat) (s : State) :
    exec (.rdreg reg) s = .next (raise .badRegister 0x01#8 s) := by
  simp only [exec, execRdreg, RegName.ofNumber_eq_none unnamed]
  rfl

/-- `ERR` is bit 1 of `STATUS` and `CAUSE` its bits 7:4 (rule R26). -/
theorem State.statusWord_err_cause (s : State) :
    s.statusWord.getLsbD 1 = s.err ∧ s.statusWord.extractLsb' 4 4 = s.cause := by
  unfold State.statusWord
  generalize s.cause = c, s.err = e, s.wvalid = v
  revert c e v
  decide

/-- In the fill phase `SCAN_SUM` is the checksum of every byte of the stream so far (rules R33, R185). -/
theorem ScanRel.scanSum_eq_of_fill {stream : List U8} {s : State} (rel : ScanRel stream s)
    (fill : stream.length < s.params.w) : s.scanSum = crc 0#32 stream := by
  rw [rel.sum, Nat.sub_eq_zero_of_le fill.le, List.drop_zero]

/-- The first fault before a window is complete leaves `ERR`, its code and no `WVALID` in `STATUS` (rules R26, R240). -/
theorem raise_statusWord_of_first {s : State} (first : s.err = false) (noWindow : s.scanPos.toNat < s.params.w)
    (f : Cause) (op : U8) : (raise f op s).statusWord = 0#24 ++ f.code ++ 0#2 ++ 1#1 ++ 0#1 := by
  have wvalid : (raise f op s).wvalid = false := (State.wvalid_eq_false_iff _).mpr noWindow
  rw [State.statusWord, wvalid, raise_err, raise_cause, first]
  rfl

/-! ### `WRREG` -/

theorem exec_wrreg_rem (val : U32) (s : State) : exec (.wrreg 0#8 val) s = .next (s.withRem val) := rfl

theorem exec_wrreg_of_ge {reg : U8} (unnamed : 4 ≤ reg.toNat) (val : U32) (s : State) :
    exec (.wrreg reg val) s = .next (raise .badRegister 0x02#8 s) := by
  simp only [exec, execWrreg, RegName.ofNumber_eq_none unnamed]
  rfl

theorem exec_wrreg_readOnly {r : RegName} (readOnly : r ≠ .rem) (val : U32) (s : State) :
    exec (.wrreg r.number val) s = .next (raise .readOnlyRegister 0x02#8 s) := by
  cases r with
  | rem => exact absurd rfl readOnly
  | scanSum | scanPos | status => rfl

/-! ### The obligations -/

/-- Settles O22: all of `ARG` is reserved in the row of `NOP`, and the all-zero word is its encoding. -/
theorem nopChangesNothing : Obligations.NopChangesNothing :=
  ⟨fun _ => rfl, fun s _ op => issue_of_op_nop op s, fun _ _ waiting => step_encode (i := .nop) waiting rfl⟩

/-- Settles O23: the named registers by number, the numbers that name none, and the fields of `STATUS`. -/
theorem rdregEmitsTheRegister : Obligations.RdregEmitsTheRegister := by
  refine ⟨?named, fun s reg unnamed => exec_rdreg_of_ge unnamed s, fun s c op => issue_of_op_rdreg op s, ?fill,
    ?afterFault, ?firstIllegal, ?vector⟩
  case named =>
    exact fun s => ⟨exec_rdreg_number .rem s, exec_rdreg_number .scanSum s, exec_rdreg_number .scanPos s,
      exec_rdreg_number .status s⟩
  case fill =>
    intro stream s rel fill
    rw [← rel.scanSum_eq_of_fill fill]
    exact exec_rdreg_number .scanSum s
  case afterFault =>
    intro s f op
    obtain ⟨err, cause⟩ := State.statusWord_err_cause (raise f op s)
    exact ⟨err, cause.trans (raise_cause f op s)⟩
  case firstIllegal =>
    intro s op first noWindow
    rw [raise_statusWord_of_first first noWindow]
    rfl
  case vector =>
    intro s rest waiting rem
    have answer := (step_encode (i := .rdreg 0#8) waiting rfl).trans (exec_rdreg_number .rem _)
    refine ⟨_, answer, ?_⟩
    have value : (s.withCmds rest).readReg .rem = 0x2DFD2D88#32 := rem
    rw [value]
    exact List.map_append

/-- Settles O24: a register number names `REM`, a read-only register or none. -/
theorem wrregWritesOnlyRem : Obligations.WrregWritesOnlyRem := by
  refine ⟨fun s val => exec_wrreg_rem val s, fun s reg val unnamed => exec_wrreg_of_ge unnamed val s, ?readOnly,
    fun s c op => issue_of_op_wrreg op s, ?writes, ?refuses⟩
  case readOnly =>
    intro s reg val ge le
    obtain ⟨r, rfl⟩ := RegName.exists_number_eq le
    exact exec_wrreg_readOnly (by rintro rfl; exact absurd ge (by decide)) val s
  case writes =>
    exact fun s rest waiting => ⟨_, step_encode (i := .wrreg 0#8 0xFFFFFFFF#32) waiting rfl, rfl⟩
  case refuses =>
    exact fun s rest waiting => ⟨_, step_encode (i := .wrreg 2#8 5#32) waiting rfl, rfl, rfl⟩

end Sys2Proof.Machine

/-! ## Proofs of the exceptions family: raising a fault, the first failed check, and going on after a fault

SUPPORT. `State.failedCheck` says which check of rule R239 a command fails, and `exec_of_failedCheck` with
`exec_of_checks_pass` what it does then: raise that cause, or end alike whatever `ERR` and `CAUSE` hold. `STATUS` has no
part in the checks, so a fault before a command changes neither the check it fails nor what it does. -/

namespace Sys2Proof.Machine

/-! ### The check a command fails -/

/-- The check a command fails after decode (rule R239). A slice command the instance does not have fails decode itself
(rule R78). -/
def State.failedCheck (s : State) : Instr → Option Cause
  | .nop => none
  | .rdreg reg => if 3 < reg.toNat then some .badRegister else none
  | .wrreg reg _ =>
    if 3 < reg.toNat then some .badRegister
    else if 1 ≤ reg.toNat then some .readOnlyRegister
    else none
  | .tblRead idx => if 2304 ≤ idx.toNat then some .tableIndexRange else none
  | .crcByte _ => none
  | .crcSlice4 _ _ _ _ => if s.params.sliceMax.width < 4 then some .illegalCommand else none
  | .crcSlice8 _ _ _ _ _ _ _ _ => if s.params.sliceMax.width < 8 then some .illegalCommand else none
  | .rollStep _ _ => none
  | .scanByte _ => if s.scanPos = 0xFFFFFFFF#32 then some .positionOverflow else none
  | .scanEnd => none

/-- The check a command word fails (rule R239): decode, or the check of its command. -/
def State.failedCheckOfWord (s : State) (c : U72) : Option Cause :=
  match decode s.params.sliceMax c with
  | .ok i => s.failedCheck i
  | .error _ => some .illegalCommand

theorem State.withStatus_failedCheck (s : State) (i : Instr) (e : Bool) (c : BitVec 4) :
    (s.withStatus e c).failedCheck i = s.failedCheck i := by
  cases i <;> rfl

theorem State.failedCheckOfWord_of_selects {s : State} {c : U72} {m : Mnemonic}
    (row : Mnemonic.Selects s.params.sliceMax m c) : s.failedCheckOfWord c = s.failedCheck (m.read (argOf c)) := by
  rw [State.failedCheckOfWord, decode_of_selects row]

theorem State.failedCheckOfWord_of_not_selects {s : State} {c : U72}
    (noRow : ∀ m, ¬ Mnemonic.Selects s.params.sliceMax m c) : s.failedCheckOfWord c = some .illegalCommand := by
  unfold State.failedCheckOfWord
  cases decoded : decode s.params.sliceMax c with
  | ok i => exact absurd (selects_of_decode decoded).1 (noRow i.mnemonic)
  | error e => rfl

/-! ### What a command does when it fails a check, and when it fails none -/

/-- A command that fails a check raises its cause and does nothing else (rule R241). -/
theorem exec_of_failedCheck {i : Instr} {s : State} {f : Cause} (fails : s.failedCheck i = some f) :
    exec i s = .next (raise f i.mnemonic.op s) := by
  cases i with
  | nop | crcByte | rollStep | scanEnd => cases fails
  | rdreg reg =>
    obtain ⟨unnamed, ⟨⟩⟩ := Option.ite_none_right_eq_some.mp fails
    exact exec_rdreg_of_ge unnamed s
  | wrreg reg val =>
    simp only [State.failedCheck] at fails
    split at fails
    case isTrue unnamed =>
      obtain ⟨⟩ := fails
      exact exec_wrreg_of_ge unnamed val s
    case isFalse named =>
      obtain ⟨ge, ⟨⟩⟩ := Option.ite_none_right_eq_some.mp fails
      obtain ⟨r, rfl⟩ := RegName.exists_number_eq (Nat.not_lt.mp named)
      exact exec_wrreg_readOnly (by rintro rfl; exact absurd ge (by decide)) val s
  | tblRead idx =>
    obtain ⟨outOfRange, ⟨⟩⟩ := Option.ite_none_right_eq_some.mp fails
    exact exec_tblRead_of_ge outOfRange s
  | crcSlice4 b0 b1 b2 b3 =>
    obtain ⟨absent, ⟨⟩⟩ := Option.ite_none_right_eq_some.mp fails
    exact if_pos absent
  | crcSlice8 b0 b1 b2 b3 b4 b5 b6 b7 =>
    obtain ⟨absent, ⟨⟩⟩ := Option.ite_none_right_eq_some.mp fails
    exact if_pos absent
  | scanByte b0 =>
    obtain ⟨last, ⟨⟩⟩ := Option.ite_none_right_eq_some.mp fails
    exact execScanByte_overflow last b0

/-- Every register but `STATUS` reads the same whatever `ERR` and `CAUSE` hold. -/
theorem State.withStatus_readReg {r : RegName} (notStatus : r ≠ .status) (s : State) (e : Bool) (c : BitVec 4) :
    (s.withStatus e c).readReg r = s.readReg r := by
  cases r with
  | rem | scanSum | scanPos => rfl
  | status => exact absurd rfl notStatus

theorem KeepsStatus.emit_rsp (v : U32) (s : State) : KeepsStatus s (emit (.rsp v) s) :=
  ⟨rfl, rfl, [.rsp v], rfl, by simp [Record.isFault]⟩

/-- A command that fails no check keeps `STATUS` and raises no fault, and what it does to the other fields does not
depend on `ERR` and `CAUSE`, except that `RDREG STATUS` reads them (rules R241, R242). -/
theorem exec_of_checks_pass {i : Instr} {s : State} (pass : s.failedCheck i = none) :
    ∃ t, exec i s = .next t ∧ KeepsStatus s t ∧
      ∀ e c, i ≠ .rdreg 3#8 → exec i (s.withStatus e c) = .next (t.withStatus e c) := by
  cases i with
  | nop => exact ⟨s, rfl, .refl s, fun _ _ _ => rfl⟩
  | rdreg reg =>
    have named : reg.toNat ≤ 3 := by simpa [State.failedCheck] using pass
    obtain ⟨r, rfl⟩ := RegName.exists_number_eq named
    refine ⟨_, exec_rdreg_number r s, .emit_rsp _ s, fun e c notStatus => ?_⟩
    rw [exec_rdreg_number, State.withStatus_readReg (by rintro rfl; exact notStatus rfl)]
    rfl
  | wrreg reg val =>
    have zero : reg.toNat = 0 := by grind [State.failedCheck]
    obtain rfl : reg = 0#8 := BitVec.eq_of_toNat_eq zero
    exact ⟨_, exec_wrreg_rem val s, .of_silent rfl rfl rfl, fun _ _ _ => rfl⟩
  | tblRead idx =>
    have inRange : idx.toNat < 2304 := by simpa [State.failedCheck] using pass
    exact ⟨_, exec_tblRead_of_lt inRange s, .emit_rsp _ s, fun e c _ => exec_tblRead_of_lt inRange (s.withStatus e c)⟩
  | crcByte b0 => exact ⟨_, rfl, .of_silent rfl rfl rfl, fun _ _ _ => rfl⟩
  | crcSlice4 b0 b1 b2 b3 =>
    have present : ¬ s.params.sliceMax.width < 4 := by simpa [State.failedCheck] using pass
    exact ⟨_, if_neg present, .of_silent rfl rfl rfl, fun _ _ _ => if_neg present⟩
  | crcSlice8 b0 b1 b2 b3 b4 b5 b6 b7 =>
    have present : ¬ s.params.sliceMax.width < 8 := by simpa [State.failedCheck] using pass
    exact ⟨_, if_neg present, .of_silent rfl rfl rfl, fun _ _ _ => if_neg present⟩
  | rollStep inb outb => exact ⟨_, rfl, .of_silent rfl rfl rfl, fun _ _ _ => rfl⟩
  | scanByte b0 =>
    have notLast : s.scanPos ≠ 0xFFFFFFFF#32 := by simpa [State.failedCheck] using pass
    rcases Nat.lt_or_ge (s.scanPos.toNat + 1) s.params.w with fill | full
    · exact ⟨_, execScanByte_noWindow notLast fill b0, .of_silent rfl rfl rfl,
        fun e c _ => execScanByte_noWindow (s := s.withStatus e c) notLast fill b0⟩
    · exact ⟨_, execScanByte_window notLast full b0, ⟨rfl, rfl, _, rfl, matchRecords_isFault _ _ _ _⟩,
        fun e c _ => execScanByte_window (s := s.withStatus e c) notLast full b0⟩
  | scanEnd => exact ⟨_, execScanEnd_eq s, .of_silent rfl rfl rfl, fun e c _ => execScanEnd_eq (s.withStatus e c)⟩

/-- The record of a fault carries the `OP` byte of the word (rule R240). -/
theorem issue_of_failedCheckOfWord {s : State} {c : U72} {f : Cause} (fails : s.failedCheckOfWord c = some f) :
    issue c s = .next (raise f (opOf c) s) := by
  rcases issue_cases c s with ⟨i, decoded, h⟩ | ⟨noRow, h⟩
  · obtain ⟨row, -⟩ := selects_of_decode decoded
    obtain ⟨-, op, -⟩ := (Mnemonic.selects_iff ..).mp row
    rw [State.failedCheckOfWord, decoded] at fails
    rw [h, op, exec_of_failedCheck fails]
  · obtain ⟨⟩ := (State.failedCheckOfWord_of_not_selects noRow).symm.trans fails
    exact h

theorem issue_of_checks_pass {s : State} {c : U72} (pass : s.failedCheckOfWord c = none) :
    ∃ t, issue c s = .next t ∧ KeepsStatus s t := by
  rcases issue_cases c s with ⟨i, decoded, h⟩ | ⟨noRow, -⟩
  · rw [State.failedCheckOfWord, decoded] at pass
    obtain ⟨t, ends, keeps, -⟩ := exec_of_checks_pass pass
    exact ⟨t, h.trans ends, keeps⟩
  · cases (State.failedCheckOfWord_of_not_selects noRow).symm.trans pass

/-! ### The first failed check, from the bits of the word -/

/-- An outcome `FirstFailedCheck` reads from the bits of a word is the check the word fails: the bits give its row and
decide that row's check. -/
theorem FirstFailedCheck.failedCheckOfWord_eq {s : State} {c : U72} {x : Option Cause} (h : FirstFailedCheck s c x) :
    s.failedCheckOfWord c = x := by
  match x, h with
  | some .illegalCommand, noRow => exact State.failedCheckOfWord_of_not_selects noRow
  | some .badRegister, ⟨.inl row, unnamed⟩ => exact (State.failedCheckOfWord_of_selects row).trans (if_pos unnamed)
  | some .badRegister, ⟨.inr row, unnamed⟩ => exact (State.failedCheckOfWord_of_selects row).trans (if_pos unnamed)
  | some .readOnlyRegister, ⟨row, ge, le⟩ =>
    exact (State.failedCheckOfWord_of_selects row).trans ((if_neg (Nat.not_lt.mpr le)).trans (if_pos ge))
  | some .tableIndexRange, ⟨row, outOfRange⟩ => exact (State.failedCheckOfWord_of_selects row).trans (if_pos outOfRange)
  | some .positionOverflow, ⟨row, last⟩ => exact (State.failedCheckOfWord_of_selects row).trans (if_pos last)
  | none, ⟨⟨m, row⟩, named, writable, inRange, notLast⟩ =>
    rw [State.failedCheckOfWord_of_selects row]
    cases m with
    | nop | crcByte | rollStep | scanEnd => rfl
    | rdreg => exact if_neg fun unnamed => named ⟨.inl row, unnamed⟩
    | wrreg =>
      exact (if_neg fun unnamed => named ⟨.inr row, unnamed⟩).trans (if_neg fun readOnly => writable ⟨row, readOnly⟩)
    | tblRead => exact if_neg fun outOfRange => inRange ⟨row, outOfRange⟩
    | crcSlice4 | crcSlice8 =>
      obtain ⟨present, -⟩ := row
      exact if_neg (Nat.not_lt.mpr present)
    | scanByte => exact if_neg fun last => notLast ⟨row, last⟩

/-- The checks in the order of rule R239: what fails none of the five is the outcome `none`. -/
theorem exists_firstFailedCheck (s : State) (c : U72) : ∃ x, FirstFailedCheck s c x := by
  by_cases illegal : FirstFailedCheck s c (some .illegalCommand)
  · exact ⟨_, illegal⟩
  by_cases unnamed : FirstFailedCheck s c (some .badRegister)
  · exact ⟨_, unnamed⟩
  by_cases readOnly : FirstFailedCheck s c (some .readOnlyRegister)
  · exact ⟨_, readOnly⟩
  by_cases outOfRange : FirstFailedCheck s c (some .tableIndexRange)
  · exact ⟨_, outOfRange⟩
  by_cases last : FirstFailedCheck s c (some .positionOverflow)
  · exact ⟨_, last⟩
  have writable : ¬ (Mnemonic.Selects s.params.sliceMax .wrreg c ∧ 1 ≤ ((argOf c).extractLsb' 32 8).toNat) :=
    fun ⟨row, ge⟩ => readOnly ⟨row, ge, Nat.not_lt.mp fun gt => unnamed ⟨.inr row, gt⟩⟩
  exact ⟨none, not_forall_not.mp illegal, unnamed, writable, outOfRange, last⟩

/-- Every outcome that holds is the check the word fails, so there is one. -/
theorem existsUnique_firstFailedCheck (s : State) (c : U72) : ∃! x, FirstFailedCheck s c x := by
  obtain ⟨x, h⟩ := exists_firstFailedCheck s c
  exact ⟨x, h, fun y h' => h'.failedCheckOfWord_eq.symm.trans h.failedCheckOfWord_eq⟩

/-! ### Raising a fault -/

theorem raise_outWords (f : Cause) (op : U8) (s : State) :
    (raise f op s).outWords = s.outWords ++ [(Record.fault f op).word] := List.map_append

/-- The engine never stops (rule R19). -/
theorem exists_step_eq_next (s : State) : ∃ t, step s = .next t := by
  cases waiting : s.cmds with
  | nil => exact ⟨s, by rw [step, accept_eq_none waiting]⟩
  | cons c rest =>
    rw [step_of_cmds waiting]
    rcases issue_raises_or_keepsStatus c (s.withCmds rest) with ⟨f, h⟩ | ⟨t, h, -⟩
    · exact ⟨_, h⟩
    · exact ⟨t, h⟩

/-- After a fault, a step keeps `ERR` and the first cause (rules R28, R29). -/
theorem step_keeps_status_of_err {s t : State} (h : step s = .next t) (err : s.err = true) :
    t.err = true ∧ t.cause = s.cause := by
  refine ⟨step_keeps_err h err, ?_⟩
  by_contra changed
  obtain ⟨first, -⟩ := step_changes_cause h changed
  exact absurd (err.symm.trans first) (by decide)

/-! ### The obligations -/

/-- Settles O46, field by field of `raise`; the waiting words are as they were, so the next one is accepted. -/
theorem raisingAFaultRecordsItAndNothingElse : Obligations.RaisingAFaultRecordsItAndNothingElse := by
  intro f op s
  have cause : (raise f op s).cause = if s.err = false then f.code else s.cause := by
    rw [raise_cause]
    cases s.err <;> rfl
  exact ⟨cause, rfl, rfl, raise_outWords f op s, rfl, rfl, rfl, rfl, rfl, rfl, rfl, rfl,
    fun _ _ waiting => step_of_cmds waiting, exists_step_eq_next _⟩

/-- Settles O47: the outcome of the checks is the check the word fails, and that decides what the word does. -/
theorem firstFailedCheckIsTheOnlyEffect : Obligations.FirstFailedCheckIsTheOnlyEffect := by
  refine ⟨existsUnique_firstFailedCheck, fun s c f h => issue_of_failedCheckOfWord h.failedCheckOfWord_eq, ?passes,
    ?reserved, ?register⟩
  case passes =>
    intro s c h
    obtain ⟨t, ends, err, cause, rs, out, noFault⟩ := issue_of_checks_pass h.failedCheckOfWord_eq
    exact ⟨t, rs, ends, err, cause, out, noFault⟩
  case reserved => exact fun s c op _ reserved => (issue_of_op_wrreg op s).trans (if_neg reserved)
  case register =>
    intro s
    have issued := issue_of_op_wrreg (c := 0x020000000700000000#72) (by decide) s
    rw [if_pos (by decide)] at issued
    exact issued.trans (exec_wrreg_of_ge (by decide) _ s)

/-- Settles O50: neither the check a command fails nor what it does when it fails none depends on `ERR` and `CAUSE`. -/
theorem commandsAfterAFaultAreNotAffectedByIt : Obligations.CommandsAfterAFaultAreNotAffectedByIt := by
  refine ⟨?second, fun s t => step_keeps_status_of_err, fun a s notReset => hostAct_status notReset s, ?alike⟩
  case second => exact fun f g op op' s => ⟨rfl, rfl, by simp⟩
  case alike =>
    intro i s e c notStatus
    cases check : s.failedCheck i with
    | some f =>
      exact .inr ⟨f, i.mnemonic.op, exec_of_failedCheck check,
        exec_of_failedCheck ((s.withStatus_failedCheck i e c).trans check)⟩
    | none =>
      obtain ⟨t, ends, keeps, alike⟩ := exec_of_checks_pass check
      exact .inl ⟨t, ends, keeps.err, keeps.cause, alike e c notStatus⟩

end Sys2Proof.Machine


/-! ## Proofs of the reset and hazards family: the order of the output records

SUPPORT. A command emits nothing, one record, or the `MATCH` records of one window (`CommandRecords`); a step emits
what its command does and takes nothing from the port (`step_emits`). -/

namespace Sys2Proof.Machine

/-! ### The records of one command -/

/-- What one command can emit with history `h`: nothing; a response or a fault; the matches of the window at an offset
that a record has bits for. -/
inductive CommandRecords (h : Hist) : List Record → Prop
  | silent : CommandRecords h []
  | single (r : Record) : CommandRecords h [r]
  | window {depth o : Nat} {v : U32} (fits : o < 2 ^ 32) : CommandRecords h (matchRecords h depth o v)

/-- The `MATCH` records among `rs` rise in `offset_a`. -/
def MatchesRise (rs : List Record) : Prop :=
  rs.Pairwise (fun x y => ∀ a b c d, x = .matchPair a b → y = .matchPair c d → a < c)

/-- The 32 bits of `offset_a` keep the order of offsets below 2^32 (rule R73). -/
theorem matchRecords_matchesRise {h : Hist} (wf : h.Wf) (depth : Nat) {o : Nat} (fits : o < 2 ^ 32) (v : U32) :
    MatchesRise (matchRecords h depth o v) := by
  refine List.pairwise_map.mpr ((Hist.equalOffsets_sorted wf _ o v).imp_of_mem fun {x y} _ hy lt => ?_)
  have below : y < o := ((Hist.mem_equalOffsets wf ..).mp hy).2.1
  rintro a b c d ⟨⟩ ⟨⟩
  rw [BitVec.lt_def, BitVec.toNat_ofNat, BitVec.toNat_ofNat, Nat.mod_eq_of_lt (by omega), Nat.mod_eq_of_lt (by omega)]
  exact lt

theorem CommandRecords.matchesRise {h : Hist} {rs : List Record} (records : CommandRecords h rs) (wf : h.Wf) :
    MatchesRise rs := by
  cases records with
  | silent => exact List.Pairwise.nil
  | single r => exact List.pairwise_singleton ..
  | window fits => exact matchRecords_matchesRise wf _ fits _

theorem CommandRecords.fault_alone {h : Hist} {rs : List Record} (records : CommandRecords h rs) {f : Cause} {op : U8}
    (mem : .fault f op ∈ rs) : rs = [.fault f op] := by
  cases records with
  | silent => cases mem
  | single r => rw [List.mem_singleton.mp mem]
  | window fits => cases matchRecords_isFault _ _ _ _ _ mem

/-! ### What a step does to `OUT` and to the output port -/

/-- From `s` to `t` the records of one command are appended to `OUT`, and the host takes none. -/
structure Emits (rs : List Record) (s t : State) : Prop where
  out : t.out = s.out ++ rs
  taken : t.taken = s.taken
  records : CommandRecords s.hist rs

theorem Emits.of_silent {s t : State} (out : t.out = s.out) (taken : t.taken = s.taken) : Emits [] s t :=
  ⟨by rw [out, List.append_nil], taken, .silent⟩

theorem Emits.raise (f : Cause) (op : U8) (s : State) : Emits [.fault f op] s (raise f op s) := ⟨rfl, rfl, .single _⟩

/-- A byte that completes a window is not at the last position, so the window's offset fits 32 bits (rule R184). -/
theorem exec_emits {i : Instr} {s t : State} (h : exec i s = .next t) : ∃ rs, Emits rs s t := by
  rcases exec_cases i s with
    ⟨-, h'⟩ | ⟨f, h'⟩ | ⟨v, -, h'⟩ | ⟨v, -, h'⟩ | ⟨b0, -, -, -, h'⟩ | ⟨b0, -, notLast, -, h'⟩ | ⟨-, h'⟩
  all_goals obtain rfl := Host.Outcome.next.inj (h'.symm.trans h)
  · exact ⟨_, .of_silent rfl rfl⟩
  · exact ⟨_, .raise f _ s⟩
  · exact ⟨_, rfl, rfl, .single (.rsp v)⟩
  · exact ⟨_, .of_silent rfl rfl⟩
  · exact ⟨_, .of_silent rfl rfl⟩
  · have fits := (scanPos_add_one_toNat notLast).2
    exact ⟨_, rfl, rfl, .window (by omega)⟩
  · exact ⟨_, .of_silent rfl rfl⟩

theorem issue_emits {c : U72} {s t : State} (h : issue c s = .next t) : ∃ rs, Emits rs s t := by
  rcases issue_cases c s with ⟨i, -, h'⟩ | ⟨-, h'⟩
  · exact exec_emits (h'.symm.trans h)
  · obtain rfl := Host.Outcome.next.inj (h'.symm.trans h)
    exact ⟨_, .raise _ _ s⟩

theorem step_emits {s t : State} (h : step s = .next t) : ∃ rs, Emits rs s t := by
  rcases step_cases h with ⟨-, rfl⟩ | ⟨c, rest, -, issued⟩
  · exact ⟨_, .of_silent rfl rfl⟩
  · obtain ⟨rs, out, taken, records⟩ := issue_emits issued
    exact ⟨rs, out, taken, records⟩

/-! ### What the host has received -/

/-- The records the host has taken are not the ones appended. -/
theorem Emits.received {rs : List Record} {s t : State} (emits : Emits rs s t) (port : s.PortInv) :
    t.received = s.received := by
  rw [State.received, emits.out, emits.taken, List.take_append_of_le_length port]
  rfl

theorem State.take_received {s : State} {r : Record} (pending : s.pendingRecord = some r) :
    s.take.received = s.received ++ [r] := by
  have next : s.out[s.taken]? = some r := pending
  have taken : s.take = s.withTaken (s.taken + 1) := by rw [State.take, pending]
  rw [taken, State.received, State.withTaken_out, State.withTaken_taken, List.take_add_one, next]
  rfl

/-! ### The obligation -/

/-- Settles O57: the records a step appends are those of one command, and what the host has received is the part of
`OUT` before them. -/
theorem recordsLeaveInCommandOrder : Obligations.RecordsLeaveInCommandOrder := by
  refine ⟨?step, ?port, fun s r => State.take_received, fun s => List.take_prefix ..⟩
  case step =>
    intro s t wf h
    obtain ⟨rs, emits⟩ := step_emits h
    exact ⟨rs, emits.out, emits.records.matchesRise wf, fun f op => emits.records.fault_alone⟩
  case port =>
    intro s t h port
    obtain ⟨rs, emits⟩ := step_emits h
    exact emits.received port

end Sys2Proof.Machine

/-! ## Proofs of the encoding round trips: command words and output records

SUPPORT. A word is the concatenation of its fields, so a word whose reserved fields are 0 is the word `encode` writes
from the other fields (`encode_read`); with `read_encode`, decode and encode are inverse. The words of output records
are read back the same way, field by field. -/

namespace Sys2Proof

/-! ### A word that selects a row is the word of the command read from it -/

/-- The reserved bits of format R are the fields on both sides of `reg` (rule R71). -/
theorem argOf_and_reserved_r_iff (c : U72) :
    argOf c &&& Format.r.reserved = 0#64 ↔ c.extractLsb' 0 32 = 0#32 ∧ c.extractLsb' 40 24 = 0#24 := by
  have mask : Format.r.reserved = (BitVec.allOnes 32).setWidth 64 ||| BitVec.allOnes 64 <<< 40 := by decide
  rw [mask, BitVec.and_or_distrib_left, BitVec.or_eq_zero_iff, Machine.and_setWidth_allOnes_eq_zero_iff (by decide),
    Machine.and_allOnes_shiftLeft_eq_zero_iff, argOf_extractLsb' c (by decide), argOf_extractLsb' c (by decide)]

/-- The reserved bits of every other format are a field from bit `n` of `ARG` up (rule R71). -/
theorem extractLsb'_of_reserved {c : U72} {f : Format} {n : Nat} (clear : argOf c &&& f.reserved = 0#64)
    (mask : f.reserved = BitVec.allOnes 64 <<< n) (le : n ≤ 64) : c.extractLsb' n (64 - n) = 0#(64 - n) := by
  rw [mask, Machine.and_allOnes_shiftLeft_eq_zero_iff, argOf_extractLsb' c (by omega)] at clear
  exact clear

/-- A word with a row's `OP` and no reserved bit set is the word of the command it carries (rules R71, R82). -/
theorem encode_read {m : Mnemonic} {c : U72} (op : opOf c = m.op) (clear : argOf c &&& m.format.reserved = 0#64) :
    encode (m.read (argOf c)) = c := by
  have fields : encode (m.read (argOf c)) = c.extractLsb' 0 72 := by
    rw [opOf] at op
    cases m with
      simp (disch := decide) only [Mnemonic.op, Mnemonic.read, lane, Nat.reduceMul, argOf_extractLsb'] at op ⊢
    | nop | scanEnd =>
      have reserved : c.extractLsb' 0 64 = 0#64 := extractLsb'_of_reserved clear (by decide) (by decide)
      simp only [encode, ← op, ← reserved, BitVec.extractLsb'_append_extractLsb'_eq_extractLsb']
    | rdreg =>
      obtain ⟨low, high⟩ := (argOf_and_reserved_r_iff c).mp clear
      simp only [encode, ← op, ← low, ← high, BitVec.extractLsb'_append_extractLsb'_eq_extractLsb']
    | wrreg =>
      have reserved : c.extractLsb' 40 24 = 0#24 := extractLsb'_of_reserved clear (by decide) (by decide)
      simp only [encode, ← op, ← reserved, BitVec.extractLsb'_append_extractLsb'_eq_extractLsb']
    | tblRead =>
      have reserved : c.extractLsb' 12 52 = 0#52 := extractLsb'_of_reserved clear (by decide) (by decide)
      simp only [encode, ← op, ← reserved, BitVec.extractLsb'_append_extractLsb'_eq_extractLsb']
    | crcByte | scanByte =>
      have reserved : c.extractLsb' 8 56 = 0#56 := extractLsb'_of_reserved clear (by decide) (by decide)
      simp only [encode, ← op, ← reserved, BitVec.extractLsb'_append_extractLsb'_eq_extractLsb']
    | crcSlice4 =>
      have reserved : c.extractLsb' 32 32 = 0#32 := extractLsb'_of_reserved clear (by decide) (by decide)
      simp only [encode, ← op, ← reserved, BitVec.extractLsb'_append_extractLsb'_eq_extractLsb']
    | crcSlice8 => simp only [encode, ← op, BitVec.extractLsb'_append_extractLsb'_eq_extractLsb']
    | rollStep =>
      have reserved : c.extractLsb' 16 48 = 0#48 := extractLsb'_of_reserved clear (by decide) (by decide)
      simp only [encode, ← op, ← reserved, BitVec.extractLsb'_append_extractLsb'_eq_extractLsb']
  exact fields.trans BitVec.extractLsb'_eq_self

theorem SliceMax.width_le_eight (sm : SliceMax) : sm.width ≤ 8 := by cases sm <;> decide

theorem wellFormed_of_minSlice_le {sm : SliceMax} {i : Instr} (present : i.mnemonic.minSlice ≤ sm.width) :
    i.wellFormed sm = true := by
  cases i with
  | crcSlice4 b0 b1 b2 b3 => exact decide_eq_true present
  | crcSlice8 b0 b1 b2 b3 b4 b5 b6 b7 => exact decide_eq_true (Nat.le_antisymm sm.width_le_eight present)
  | nop | rdreg | wrreg | tblRead | crcByte | rollStep | scanByte | scanEnd => rfl


/-! ### Output records -/

namespace Machine

theorem Cause.ofCode_code (f : Cause) : Cause.ofCode f.code = some f := by cases f <;> rfl

theorem Cause.code_of_ofCode {x : BitVec 4} {f : Cause} (h : Cause.ofCode x = some f) : f.code = x := by
  revert x
  cases f <;> decide

theorem Cause.setWidth_code (f : Cause) : f.code.setWidth 8 = 0#4 ++ f.code := by cases f <;> rfl

namespace Record

theorem word_rsp_fields (v : U32) :
    (rsp v).word.extractLsb' 64 8 = 0x01#8 ∧ (rsp v).word.extractLsb' 32 32 = 0#32 ∧
      (rsp v).word.extractLsb' 0 32 = v := by
  simp (disch := decide) only [word, BitVec.extractLsb'_append_eq_of_le, BitVec.extractLsb'_append_eq_right,
    BitVec.extractLsb'_eq_self, Nat.reduceSub, and_self]

theorem word_matchPair_fields (a b : U32) :
    (matchPair a b).word.extractLsb' 64 8 = 0x02#8 ∧ (matchPair a b).word.extractLsb' 0 32 = a ∧
      (matchPair a b).word.extractLsb' 32 32 = b := by
  simp (disch := decide) only [word, BitVec.extractLsb'_append_eq_of_le, BitVec.extractLsb'_append_eq_right,
    BitVec.extractLsb'_eq_self, Nat.reduceSub, and_self]

theorem word_fault_fields (f : Cause) (op : U8) :
    (fault f op).word.extractLsb' 64 8 = 0xFF#8 ∧ (fault f op).word.extractLsb' 16 48 = 0#48 ∧
      (fault f op).word.extractLsb' 8 8 = op ∧ (fault f op).word.extractLsb' 0 8 = f.code.setWidth 8 := by
  simp (disch := decide) only [word, BitVec.extractLsb'_append_eq_of_le, BitVec.extractLsb'_append_eq_right,
    BitVec.extractLsb'_eq_self, Nat.reduceSub, and_self]

/-- The low byte of the word of a `FAULT` is the code of its cause below four 0 bits (rule R73). -/
theorem word_fault_code (f : Cause) (op : U8) :
    (fault f op).word.extractLsb' 4 4 = 0#4 ∧ (fault f op).word.extractLsb' 0 4 = f.code := by
  rw [word, f.setWidth_code]
  simp (disch := decide) only [BitVec.extractLsb'_append_eq_of_add_le, BitVec.extractLsb'_append_eq_of_le,
    BitVec.extractLsb'_eq_self, Nat.reduceSub, and_self]

theorem ofWord_word (r : Record) : ofWord r.word = some r := by
  unfold ofWord
  cases r with
  | rsp v =>
    obtain ⟨kind, zero, value⟩ := word_rsp_fields v
    simp [kind, zero, value]
  | matchPair a b =>
    obtain ⟨kind, first, second⟩ := word_matchPair_fields a b
    simp [kind, first, second]
  | fault f op =>
    obtain ⟨kind, zero, opByte, -⟩ := word_fault_fields f op
    obtain ⟨high, code⟩ := word_fault_code f op
    simp [kind, zero, opByte, high, code, Cause.ofCode_code]

theorem word_of_ofWord {o : U72} {r : Record} (h : ofWord o = some r) : r.word = o := by
  have fields : r.word = o.extractLsb' 0 72 := by
    unfold ofWord at h
    dsimp only at h
    split at h
    case isTrue kind =>
      obtain ⟨zero, ⟨⟩⟩ := Option.ite_none_right_eq_some.mp h
      simp only [word, ← kind, ← zero, BitVec.extractLsb'_append_extractLsb'_eq_extractLsb']
    case isFalse =>
      split at h
      case isTrue kind =>
        cases h
        simp only [word, ← kind, BitVec.extractLsb'_append_extractLsb'_eq_extractLsb']
      case isFalse =>
        obtain ⟨kind, h⟩ := Option.ite_none_right_eq_some.mp h
        obtain ⟨⟨zero, high⟩, h⟩ := Option.ite_none_right_eq_some.mp h
        split at h
        case h_2 => cases h
        case h_1 f code =>
          cases h
          rw [word, f.setWidth_code, Cause.code_of_ofCode code]
          simp only [← kind, ← zero, ← high, BitVec.extractLsb'_append_extractLsb'_eq_extractLsb']
  exact fields.trans BitVec.extractLsb'_eq_self

end Record

/-! ### The obligations -/

/-- Settles O11: the word has the command's `OP`, no reserved bit, and its operands in the fields of its row. -/
theorem decodeOfEncodeIsTheCommand : Obligations.DecodeOfEncodeIsTheCommand :=
  fun _ _ => decode_encode

/-- Settles O12: a word that decodes selects the row of its command, so it is the concatenation `encode` writes. -/
theorem encodeOfDecodeIsTheWord : Obligations.EncodeOfDecodeIsTheWord := by
  intro sm c i decoded
  obtain ⟨row, operands⟩ := selects_of_decode decoded
  obtain ⟨present, op, clear⟩ := (Mnemonic.selects_iff ..).mp row
  exact ⟨operands ▸ encode_read op clear, wellFormed_of_minSlice_le present⟩

/-- Settles O16, from the fields of each kind of record. -/
theorem outputRecordsReadBackFromTheirWords : Obligations.OutputRecordsReadBackFromTheirWords :=
  ⟨Record.word_rsp_fields, Record.word_matchPair_fields, Record.word_fault_fields, Record.ofWord_word,
    fun _ _ => Record.word_of_ofWord⟩

/-- Settles O15: thirteen fixed words, evaluated. -/
theorem wordsOfTheSpecDecodeAsWritten : Obligations.WordsOfTheSpecDecodeAsWritten := by
  unfold Obligations.WordsOfTheSpecDecodeAsWritten
  decide

end Machine

end Sys2Proof

/-! ## Proofs on the table generator: `crc` as a linear map, the image of the table space, equal checksums

SUPPORT. The byte step splits its remainder into what is shifted out and the low byte (`updateByte_zero_split`); `crc`
and both tables inherit its linearity, the rolling table being one more slice group (`rollRead_eq_sliceEntry`). A
remainder that bit steps take to 0 is 0 (`updateBit_eq_zero`), so four bytes are the most a checksum tells apart. -/

namespace Sys2Proof.Machine

/-! ### The byte step on its remainder -/

theorem zext32_ushiftRight (b : U8) : zext32 b >>> 8 = 0#32 := by
  apply BitVec.eq_of_getLsbD_eq
  intro j _
  simp [zext32]

/-- The byte folds into the remainder (rule R104). -/
theorem updateByte_fold (r : U32) (b : U8) : updateByte r b = updateByte (r ^^^ zext32 b) 0#8 := by
  have consumed : updateByte (zext32 b) b = 0#32 := by
    have shifted := updateByte_byteOf_zero (zext32 b)
    rw [byteOf_zext32_zero] at shifted
    exact shifted.trans (zext32_ushiftRight b)
  have linear := updateByte_xor (r ^^^ zext32 b) (zext32 b) 0#8 b
  rwa [consumed, BitVec.xor_assoc, BitVec.xor_self, BitVec.xor_zero, BitVec.xor_zero, BitVec.zero_xor] at linear

/-- The low byte splits off a remainder (rule R105). -/
theorem updateByte_zero_split (x : U32) : updateByte x 0#8 = (x >>> 8) ^^^ updateByte (zext32 (byteOf x 0)) 0#8 := by
  have linear := updateByte_xor x 0#32 (byteOf x 0) (byteOf x 0)
  rwa [BitVec.xor_zero, BitVec.xor_self, updateByte_byteOf_zero, updateByte_fold 0#32, BitVec.zero_xor] at linear

/-! ### The tables -/

theorem sliceEntry_zero (k : Nat) : sliceEntry k 0#8 = 0#32 := by
  rw [sliceEntry_eq_crc]
  exact crc_zero_replicate (k + 1)

/-- Every slice group is linear in its index (rule R114). -/
theorem sliceEntry_xor (k : Nat) (i j : U8) : sliceEntry k (i ^^^ j) = sliceEntry k i ^^^ sliceEntry k j := by
  have linear := crc_xor 0#32 0#32 (d1 := i :: List.replicate k 0#8) (d2 := j :: List.replicate k 0#8) (by simp)
  rw [List.zipWith_cons_cons, List.zipWith_replicate] at linear
  simpa [sliceEntry_eq_crc] using linear

/-- The rolling table is the slice group `W - 1`, which the eight groups hold for `W` up to 8 only (rule R114). -/
theorem rollRead_eq_sliceEntry (w : Nat) (i : U8) : rollRead w i = sliceEntry (w - 1) i := by
  rw [rollRead_eq_rollEntry, rollEntry_eq_crc, sliceEntry_eq_crc]

/-! ### The image the generator builds -/

theorem advanceTableBy_eq_map (k : Nat) (t : List U32) : advanceTableBy k t = t.map (zeroAdvance k) := by
  induction k generalizing t with
  | zero => exact t.map_id.symm
  | succ k ih =>
    rw [advanceTableBy, ih, advanceTable, List.map_map]
    rfl

theorem advanceTable_length (t : List U32) : (advanceTable t).length = t.length := List.length_map _

theorem groupsFrom_length (n : Nat) (t : List U32) : (groupsFrom n t).length = n * t.length := by
  induction n generalizing t with
  | zero => exact (Nat.zero_mul _).symm
  | succ n ih => rw [groupsFrom, List.length_append, ih, advanceTable_length, Nat.succ_mul, Nat.add_comm]

/-- Word `j` of the groups is entry `j mod 256` of the first one, advanced by `j / 256` zero bytes (rules R111,
R112). -/
theorem groupsFrom_getElem? {n j : Nat} {t : List U32} (length : t.length = 256) (lt : j < n * 256) :
    (groupsFrom n t)[j]? = t[j % 256]?.map (zeroAdvance (j / 256)) := by
  induction n generalizing t j with
  | zero => omega
  | succ n ih =>
    rw [groupsFrom]
    rcases Nat.lt_or_ge j 256 with here | later
    · rw [List.getElem?_append_left (by omega), Nat.mod_eq_of_lt here, Nat.div_eq_of_lt here]
      exact (Option.map_id_apply).symm
    · have next : j / 256 = (j - 256) / 256 + 1 := by omega
      rw [List.getElem?_append_right (by omega), length, ih ((advanceTable_length t).trans length) (by omega),
        ← Nat.mod_eq_sub_mod later, next, advanceTable, List.getElem?_map, Option.map_map]
      rfl

theorem baseTable_length : baseTable.length = 256 := by simp [baseTable]

theorem baseTable_getElem? {i : Nat} (lt : i < 256) : baseTable[i]? = some (baseEntry (BitVec.ofNat 8 i)) := by
  simp [baseTable, lt, baseEntry]

theorem zeroAdvance_baseEntry (k : Nat) (i : U8) : zeroAdvance k (baseEntry i) = sliceEntry k i := by
  rw [zeroAdvance_eq_crc, sliceEntry_eq_crc]
  rfl

theorem romImage_slices_length : (groupsFrom 8 baseTable).length = 2048 := by
  rw [groupsFrom_length, baseTable_length]

theorem romImage_length (w : Nat) : (romImage w).length = 2304 := by
  rw [romImage, List.length_append, romImage_slices_length, rollTable, advanceTableBy_eq_map, List.length_map,
    baseTable_length]

/-- The image holds at each index what a lookup reads there (rules R56, R117). -/
theorem romImage_getElem? (w : Nat) {j : Nat} (lt : j < 2304) : (romImage w)[j]? = some (memRead w ⟨j, lt⟩) := by
  rw [romImage]
  rcases Nat.lt_or_ge j 2048 with slice | roll
  · rw [List.getElem?_append_left (romImage_slices_length ▸ slice), groupsFrom_getElem? baseTable_length (by omega),
      baseTable_getElem? (by omega), Option.map_some, zeroAdvance_baseEntry, memRead_of_lt w lt slice]
  · rw [List.getElem?_append_right (romImage_slices_length ▸ roll), romImage_slices_length, rollTable,
      advanceTableBy_eq_map, List.getElem?_map, baseTable_getElem? (by omega), memRead_of_ge w lt roll]
    rfl

/-! ### The rolling update on any remainder -/

/-- The rolling update is linear in the checksum it starts from (rule R163). -/
theorem rollUpdate_xor (w : Nat) (a b : U32) (inb outb : U8) :
    rollUpdate w (a ^^^ b) inb outb = updateByte a 0#8 ^^^ rollUpdate w b inb outb := by
  rw [rollUpdate, rollUpdate, BitVec.xor_assoc, ← updateByte_xor, BitVec.zero_xor]

/-- Update first, then cancel: the outgoing byte is one zero byte further (rule R162, conflict C1). -/
theorem rollUpdate_eq_update_then_cancel {w : Nat} (pos : 0 < w) (sum : U32) (inb outb : U8) :
    rollUpdate w sum inb outb = updateByte sum inb ^^^ crc 0#32 (outb :: List.replicate w 0#8) := by
  obtain ⟨n, rfl⟩ := Nat.exists_eq_add_one_of_ne_zero pos.ne'
  have linear := updateByte_xor sum (crc 0#32 (outb :: List.replicate n 0#8)) inb 0#8
  rw [BitVec.xor_zero] at linear
  rw [rollUpdate_eq_crc, Nat.add_sub_cancel, linear, crc, crc, crc_replicate_succ]

/-- A window checksum started from `r0` keeps the trace of `r0`, advanced (rule R163). -/
theorem rollUpdate_window_from {w : Nat} {mid : List U8} (width : mid.length + 1 = w) (r0 : U32) (inb outb : U8) :
    rollUpdate w (crc r0 (outb :: mid)) inb outb = zeroAdvance (w + 1) r0 ^^^ crc 0#32 (mid ++ [inb]) := by
  rw [crc_eq_xor, rollUpdate_xor, rollUpdate_window width, List.length_cons, width, ← crc_replicate_succ,
    zeroAdvance_eq_crc]

/-! ### When two windows have equal checksums -/

/-- The feedback of a bit step sets bit 31, which nothing is shifted into (rule R100). -/
theorem updateBit_false_getLsbD_31 (r : U32) : (updateBit r false).getLsbD 31 = r.getLsbD 0 := by
  have top : poly.getLsbD 31 = true := by decide
  rw [updateBit]
  cases r.getLsbD 0 <;> simp [top]

theorem updateBit_eq_zero {r : U32} (h : updateBit r false = 0#32) : r = 0#32 := by
  have low : r.getLsbD 0 = false := by rw [← updateBit_false_getLsbD_31, h, BitVec.getLsbD_zero]
  have rest : r >>> 1 = 0#32 := by
    rw [updateBit, low] at h
    exact BitVec.xor_zero.symm.trans h
  apply BitVec.eq_of_getLsbD_eq
  intro j _
  cases j with
  | zero => simpa using low
  | succ j =>
    have bit := congrArg (BitVec.getLsbD · j) rest
    simpa [Nat.add_comm 1 j] using bit

theorem updateByte_eq_zero {r : U32} (h : updateByte r 0#8 = 0#32) : r = 0#32 := by
  simp only [updateByte, BitVec.getLsbD_zero] at h
  iterate 8 replace h := updateBit_eq_zero h
  exact h

theorem crc_replicate_eq_zero {k : Nat} {r : U32} (h : crc r (List.replicate k 0#8) = 0#32) : r = 0#32 := by
  induction k with
  | zero => exact h
  | succ k ih =>
    rw [crc_replicate_succ] at h
    exact ih (updateByte_eq_zero h)

/-- No four bytes but zeros leave 0: they are the bytes of a remainder advanced by four zero bytes. -/
theorem eq_zero_of_mem_of_crc_four {d : List U8} (length : d.length = 4) (h : crc 0#32 d = 0#32) :
    ∀ b ∈ d, b = 0#8 := by
  match d, length with
  | [b0, b1, b2, b3], _ =>
    obtain ⟨byte0, byte1, byte2, byte3⟩ := byteOf_le32 b0 b1 b2 b3
    have enters := crc_cons_four (le32 b0 b1 b2 b3) 0#8 0#8 0#8 0#8 []
    simp only [byte0, byte1, byte2, byte3, BitVec.xor_zero] at enters
    have zero : le32 b0 b1 b2 b3 = 0#32 := crc_replicate_eq_zero (k := 4) (enters.trans h)
    rw [zero] at byte0 byte1 byte2 byte3
    simp [← byte0, ← byte1, ← byte2, ← byte3, byteOf]

theorem crc_zero_append_replicate (n : Nat) (d : List U8) : crc 0#32 (List.replicate n 0#8 ++ d) = crc 0#32 d := by
  rw [crc_append, crc_zero_replicate]

/-- Windows of at most four bytes with equal checksums are equal: their XOR, made four bytes by leading zeros, leaves 0
(rule R197). -/
theorem eq_of_crc_eq {a b : List U8} (length : a.length = b.length) (short : a.length ≤ 4)
    (same : crc 0#32 a = crc 0#32 b) : a = b := by
  have difference : crc 0#32 (List.zipWith (fun x y => x ^^^ y) a b) = 0#32 := by
    have linear := crc_xor 0#32 0#32 length
    rwa [BitVec.xor_zero, same, BitVec.xor_self] at linear
  rw [← crc_zero_append_replicate (4 - a.length)] at difference
  have zeros := eq_zero_of_mem_of_crc_four (by simp; omega) difference
  refine List.ext_getElem length fun i ha hb => BitVec.xor_eq_zero_iff.mp (zeros _ (List.mem_append_right _ ?_))
  exact List.mem_iff_getElem.mpr ⟨i, by simp; omega, List.getElem_zipWith⟩

/-- A message followed by its own remainder, low byte first, leaves 0 (rule R197). -/
theorem crc_append_self (r : U32) (p : List U8) :
    crc r (p ++ [byteOf (crc r p) 0, byteOf (crc r p) 1, byteOf (crc r p) 2, byteOf (crc r p) 3]) = 0#32 := by
  rw [crc_append, crc_bytes_self]

/-! ### The obligations -/

/-- Settles O4: both splits are linearity with a byte that is shifted out, and the table step is the byte step. -/
theorem byteStepFoldsAndSplitsThroughTheBaseTable : Obligations.ByteStepFoldsAndSplitsThroughTheBaseTable :=
  ⟨updateByte_fold, updateByte_zero_split, fun w r b => (stepByTable_eq_crc w r b).symm⟩

/-- Settles O5, by induction on the sequences, in `crc_xor`. -/
theorem crcIsLinearOverSequences : Obligations.CrcIsLinearOverSequences :=
  ⟨fun r1 r2 _ _ length => crc_xor r1 r2 length, crc_eq_xor, crc_zero_append_replicate⟩

/-- Settles O6: `crc` threads its remainder, and the remainder and the data contribute separately. -/
theorem crcOfConcatenationCombines : Obligations.CrcOfConcatenationCombines := by
  refine ⟨zeroAdvance_eq_crc, fun r a b => ⟨crc_append r a b, ?combine⟩⟩
  case combine => rw [crc_append, crc_eq_xor, zeroAdvance_eq_crc]

/-- Settles O7: word `j` of the generator's groups is a base entry advanced by `j / 256` zero bytes. -/
theorem tableSpaceIsTheGeneratorsImage : Obligations.TableSpaceIsTheGeneratorsImage :=
  fun w _ => ⟨romImage_length w, fun idx => romImage_getElem? w idx.isLt⟩

/-- Settles O10: both tables hold slice entries, which are linear in their index. -/
theorem tablesAreLinearInTheirIndex : Obligations.TablesAreLinearInTheirIndex := by
  intro w _
  simp only [groupRead_eq_sliceEntry, rollRead_eq_sliceEntry]
  exact ⟨fun k => sliceEntry_zero k, sliceEntry_zero _, fun k => sliceEntry_xor k, sliceEntry_xor _,
    fun k i group => by rw [group]⟩

/-- Settles O34: the rolling update is linear, and one more zero byte is one more advance. -/
theorem rollStepInThePrintedOrderNeedsOneMoreZeroByte :
    Obligations.RollStepInThePrintedOrderNeedsOneMoreZeroByte := by
  refine ⟨fun s inb outb => ?printed, fun s r0 outb inb mid width rem => ?start⟩
  case printed => rw [exec_rollStep, rollUpdate_eq_update_then_cancel s.params.w_pos]
  case start => exact exec_rollStep_of_value rfl rem (rollUpdate_window_from width r0 inb outb)

/-- Settles O42. From five bytes on, a byte 1 in front of zeros and followed by its own remainder has the checksum of
`W` zeros. -/
theorem falsePositivesNeedWindowsOfFiveBytes : Obligations.FalsePositivesNeedWindowsOfFiveBytes := by
  refine ⟨fun a b => eq_of_crc_eq, fun w wide => ?collision, crc_append_self⟩
  case collision =>
    refine ⟨_, List.replicate w 0#8, ?length, List.length_replicate, ?different,
      (crc_append_self 0#32 (1#8 :: List.replicate (w - 5) 0#8)).trans (crc_zero_replicate w).symm⟩
    case length => simp; omega
    case different =>
      intro same
      have first := congrArg List.head? same
      simp [List.head?_replicate, show w ≠ 0 by omega] at first

end Sys2Proof.Machine

/-! ## Proofs on command words: what a step runs, words in order, and the sequence of `CRC32.N`

SUPPORT. A slice command the instance lacks does what its word does (`exec_of_absent`), so a step on the word of any
command is `exec` of it. What a word does leaves the waiting words alone and does not depend on them
(`issue_withCmds`), so steps run them one by one as `issueAll` does. -/

namespace Sys2Proof

theorem width_lt_minSlice {sm : SliceMax} {i : Instr} (absent : i.wellFormed sm ≠ true) :
    sm.width < i.mnemonic.minSlice :=
  Nat.not_le.mp fun present => absent (wellFormed_of_minSlice_le present)

namespace Machine

/-! ### Slice commands the instance lacks -/

/-- A slice command the instance lacks takes `IllegalCommand` (rule R78; log entry 7). -/
theorem exec_of_absent {i : Instr} {s : State} (absent : s.params.sliceMax.width < i.mnemonic.minSlice) :
    exec i s = .next (raise .illegalCommand i.mnemonic.op s) := by
  cases i with
  | crcSlice4 b0 b1 b2 b3 => exact if_pos absent
  | crcSlice8 b0 b1 b2 b3 b4 b5 b6 b7 => exact if_pos absent
  | nop | rdreg | wrreg | tblRead | crcByte | rollStep | scanByte | scanEnd =>
    exact absurd absent (Nat.not_lt.mpr (one_le_width _))

/-- Running the word of a command is running the command, on every instance. -/
theorem issue_encode_eq_exec (i : Instr) (s : State) : issue (encode i) s = exec i s := by
  by_cases present : i.wellFormed s.params.sliceMax = true
  · exact issue_encode present
  · have absent := width_lt_minSlice present
    obtain ⟨op, -⟩ := encode_fillsItsRow i
    rw [issue_of_not_selects (Mnemonic.not_selects_of_absent op absent), op, exec_of_absent absent]

/-! ### A word and the words behind it -/

theorem State.withCmds_readReg (s : State) (cs : List U72) (r : RegName) : (s.withCmds cs).readReg r = s.readReg r := by
  cases r <;> rfl

/-- A command does the same whatever words wait behind it, and leaves them waiting. -/
theorem exec_withCmds (i : Instr) (s : State) :
    ∃ t, exec i s = .next t ∧ ∀ cs, exec i (s.withCmds cs) = .next (t.withCmds cs) := by
  cases i with
  | nop => exact ⟨s, rfl, fun _ => rfl⟩
  | rdreg reg =>
    simp only [exec, execRdreg, State.withCmds_readReg]
    split <;> exact ⟨_, rfl, fun _ => rfl⟩
  | wrreg reg val =>
    simp only [exec, execWrreg]
    split <;> exact ⟨_, rfl, fun _ => rfl⟩
  | tblRead idx =>
    rcases Nat.lt_or_ge idx.toNat 2304 with inRange | outOfRange
    · exact ⟨_, exec_tblRead_of_lt inRange s, fun cs => exec_tblRead_of_lt inRange (s.withCmds cs)⟩
    · exact ⟨_, exec_tblRead_of_ge outOfRange s, fun cs => exec_tblRead_of_ge outOfRange (s.withCmds cs)⟩
  | crcByte b0 => exact ⟨_, rfl, fun _ => rfl⟩
  | crcSlice4 b0 b1 b2 b3 =>
    by_cases absent : s.params.sliceMax.width < 4
    · exact ⟨_, if_pos absent, fun _ => if_pos absent⟩
    · exact ⟨_, if_neg absent, fun _ => if_neg absent⟩
  | crcSlice8 b0 b1 b2 b3 b4 b5 b6 b7 =>
    by_cases absent : s.params.sliceMax.width < 8
    · exact ⟨_, if_pos absent, fun _ => if_pos absent⟩
    · exact ⟨_, if_neg absent, fun _ => if_neg absent⟩
  | rollStep inb outb => exact ⟨_, rfl, fun _ => rfl⟩
  | scanByte b0 =>
    by_cases last : s.scanPos = 0xFFFFFFFF#32
    · exact ⟨_, execScanByte_overflow last b0, fun cs => execScanByte_overflow (s := s.withCmds cs) last b0⟩
    · rcases Nat.lt_or_ge (s.scanPos.toNat + 1) s.params.w with fill | full
      · exact ⟨_, execScanByte_noWindow last fill b0, fun cs => execScanByte_noWindow (s := s.withCmds cs) last fill b0⟩
      · exact ⟨_, execScanByte_window last full b0, fun cs => execScanByte_window (s := s.withCmds cs) last full b0⟩
  | scanEnd => exact ⟨_, rfl, fun _ => rfl⟩

theorem issue_withCmds (c : U72) (s : State) :
    ∃ t, issue c s = .next t ∧ ∀ cs, issue c (s.withCmds cs) = .next (t.withCmds cs) := by
  rcases issue_cases c s with ⟨i, decoded, h⟩ | ⟨noRow, h⟩
  · obtain ⟨t, runs, behind⟩ := exec_withCmds i s
    exact ⟨t, h.trans runs, fun cs => (issue_of_decode (s := s.withCmds cs) decoded).trans (behind cs)⟩
  · exact ⟨_, h, fun cs => issue_of_not_selects (s := s.withCmds cs) noRow⟩

/-- As many steps as words in front run those words as `issueAll` does, and leave the rest waiting. -/
theorem run_eq_issueAll (cs rest : List U72) (s : State) (waiting : s.cmds = cs ++ rest) :
    ∃ t, Host.Core.run Sys2Proof.core cs.length s = .next (t.withCmds rest) ∧
      issueAll cs (s.withCmds []) = .next t := by
  induction cs generalizing s with
  | nil =>
    obtain rfl : s.cmds = rest := waiting
    exact ⟨s.withCmds [], rfl, rfl⟩
  | cons c cs ih =>
    obtain ⟨u, -, behind⟩ := issue_withCmds c s
    have accepted : step s = .next (u.withCmds (cs ++ rest)) := (step_of_cmds waiting).trans (behind (cs ++ rest))
    obtain ⟨t, runs, issued⟩ := ih (u.withCmds (cs ++ rest)) rfl
    refine ⟨t, ?_, ?_⟩
    · simp only [List.length_cons, Host.Core.run]
      rw [show Sys2Proof.core.step s = .next (u.withCmds (cs ++ rest)) from accepted]
      exact runs
    · rw [issueAll, behind []]
      exact issued

/-! ### The data commands of `CRC32.N` -/

theorem issueAll_append {cs : List U72} {s t : State} (runs : issueAll cs s = .next t) (more : List U72) :
    issueAll (cs ++ more) s = issueAll more t := by
  induction cs generalizing s with
  | nil => exact congrArg (issueAll more) (Host.Outcome.next.inj runs)
  | cons c cs ih =>
    obtain ⟨u, issued, -⟩ := issue_withCmds c s
    simp only [issueAll, List.cons_append, issued] at runs ⊢
    exact ih runs

theorem splits_map_crcByte (sm : SliceMax) (data : List U8) : Splits sm data (data.map .crcByte) := by
  induction data with
  | nil => exact .nil
  | cons b data ih => exact .cons (.crcByte b) [b] data _ rfl rfl ih

theorem splits_sliceBy4 {sm : SliceMax} (present : 4 ≤ sm.width) (data : List U8) : Splits sm data (sliceBy4 data) := by
  induction data using sliceBy4.induct with
  | case1 b0 b1 b2 b3 rest ih =>
    exact .cons (.crcSlice4 b0 b1 b2 b3) [b0, b1, b2, b3] rest _ (decide_eq_true present) rfl ih
  | case2 short shorter =>
    rw [sliceBy4.eq_2 short shorter]
    exact splits_map_crcByte sm short

theorem splits_sliceBy8 {sm : SliceMax} (present : sm.width = 8) (data : List U8) : Splits sm data (sliceBy8 data) := by
  induction data using sliceBy8.induct with
  | case1 b0 b1 b2 b3 b4 b5 b6 b7 rest ih =>
    exact .cons (.crcSlice8 b0 b1 b2 b3 b4 b5 b6 b7) [b0, b1, b2, b3, b4, b5, b6, b7] rest _
      (decide_eq_true present) rfl ih
  | case2 short shorter =>
    rw [sliceBy8.eq_2 short shorter]
    exact splits_map_crcByte sm short

/-- Strategy `N` splits the data into commands an instance with `SLICE_MAX >= N` has (rule R140). -/
theorem splits_dataCommands {sm n : SliceMax} (present : n.width ≤ sm.width) (data : List U8) :
    Splits sm data (dataCommands n data) := by
  cases n with
  | one => exact splits_map_crcByte sm data
  | four => exact splits_sliceBy4 present data
  | eight => exact splits_sliceBy8 (Nat.le_antisymm sm.width_le_eight present) data

/-- `CRC32.N` loads the initial remainder, takes in the data and reads the result back (rules R85, R140). -/
theorem issueAll_crc32Commands {n : SliceMax} {s : State} (present : n.width ≤ s.params.sliceMax.width) (init : U32)
    (data : List U8) :
    issueAll (wordsOf (crc32Commands n init data)) s =
      .next (emit (.rsp (crc init data)) (s.withRem (crc init data))) := by
  have load : exec (crcInit init) s = .next (s.withRem init) := exec_wrreg_rem init s
  have taken : issueAll (wordsOf (dataCommands n data)) (s.withRem init) = .next (s.withRem (crc init data)) :=
    issueAll_of_splits (splits_dataCommands present data) (s.withRem init) rfl
  have read : exec crcGet (s.withRem (crc init data)) = _ := exec_rdreg_number .rem _
  calc issueAll (wordsOf (crc32Commands n init data)) s
    _ = issueAll (wordsOf (dataCommands n data ++ [crcGet])) (s.withRem init) := issueAll_wordsOf_cons rfl load _
    _ = issueAll (wordsOf [crcGet]) (s.withRem (crc init data)) := by
      rw [wordsOf, List.map_append]
      exact issueAll_append taken _
    _ = .next (emit (.rsp (crc init data)) (s.withRem (crc init data))) := issueAll_wordsOf_cons rfl read []

/-! ### The obligations -/

/-- Settles O18: the word is accepted and decoded; an empty port is waited on. -/
theorem stepRunsTheDecodedCommand : Obligations.StepRunsTheDecodedCommand := by
  refine ⟨fun s c rest i waiting decoded => ?runs, fun s empty => ?waits⟩
  case runs => exact (step_of_cmds waiting).trans (issue_of_decode (s := s.withCmds rest) decoded)
  case waits => rw [step, accept_eq_none empty]

/-- Settles O19: the word of a command that exists decodes to it, and one that does not exist is illegal either way. -/
theorem stepRunsTheCommandOfItsWord : Obligations.StepRunsTheCommandOfItsWord :=
  fun _ i _ waiting => (step_of_cmds waiting).trans (issue_encode_eq_exec i _)

/-- Settles O20, by induction on the words in front: what each does does not depend on the words behind it. -/
theorem waitingWordsRunInArrivalOrder : Obligations.WaitingWordsRunInArrivalOrder :=
  run_eq_issueAll

/-- Settles O21: a waiting word runs a command or raises a fault, and both answer a next state. -/
theorem everyStepAnswersANextState : Obligations.EveryStepAnswersANextState :=
  exists_step_eq_next

/-- Settles O29: the instance's `SLICE_MAX` is below the least one the row exists with. -/
theorem absentSliceCommandsTakeIllegalCommand : Obligations.AbsentSliceCommandsTakeIllegalCommand :=
  ⟨fun _ b0 b1 b2 b3 absent => exec_of_absent (i := .crcSlice4 b0 b1 b2 b3) absent,
    fun _ b0 b1 b2 b3 b4 b5 b6 b7 absent => exec_of_absent (i := .crcSlice8 b0 b1 b2 b3 b4 b5 b6 b7) absent⟩

/-- Settles O28: the bytes of a remainder shift it out, and zero bytes keep 0. -/
theorem batchedDataEqualToTheRemainderCancelsIt : Obligations.BatchedDataEqualToTheRemainderCancelsIt := by
  refine ⟨fun s => ?byte, fun s present => ?slice4, fun s present => ?slice8⟩
  case byte =>
    rw [exec_of_batchedData (bytes := [byteOf s.rem 0]) rfl rfl, crc, updateByte_byteOf_zero, crc_nil]
  case slice4 =>
    have cancels := exec_of_batchedData (i := .crcSlice4 (byteOf s.rem 0) (byteOf s.rem 1) (byteOf s.rem 2)
      (byteOf s.rem 3)) (decide_eq_true present) rfl
    rwa [crc_bytes_self] at cancels
  case slice8 =>
    have cancels := exec_of_batchedData (i := .crcSlice8 (byteOf s.rem 0) (byteOf s.rem 1) (byteOf s.rem 2)
      (byteOf s.rem 3) 0#8 0#8 0#8 0#8) (decide_eq_true present) rfl
    have zero : crc s.rem ([byteOf s.rem 0, byteOf s.rem 1, byteOf s.rem 2, byteOf s.rem 3] ++ List.replicate 4 0#8) =
        0#32 := by rw [crc_append, crc_bytes_self, crc_zero_replicate]
    exact cancels.trans (congrArg (fun v => Host.Outcome.next (s.withRem v)) zero)

/-- Settles O30: the data commands of strategy `N` are a split of the data. -/
theorem batchedComputationDeliversTheCrc : Obligations.BatchedComputationDeliversTheCrc :=
  fun _ _ init data present => issueAll_crc32Commands present init data

end Machine

end Sys2Proof

/-! ## Proofs on the scan unit: one more byte, the comparison loop, streams of one window

SUPPORT. The new byte's slot is the slot of none of the `W - 1` bytes before it (`slotOf_ne`), so after it `WBUF` holds
the last `W` bytes of the longer stream; with the history update this carries `ScanRel` from a stream to the stream with
one more byte, with a window completed (`ScanRel.after_completeWindow`) and without one (`ScanRel.after_scanShift`). -/

namespace Sys2Proof.Machine

/-! ### The buffer -/

/-- Two bytes less than `W` apart have different slots (rule R32). -/
theorem slotOf_ne {w j n : Nat} (lt : j < n) (near : n < j + w) : slotOf w n ≠ slotOf w j := by
  intro same
  have divides : w ∣ n - j := (Nat.modEq_iff_dvd' lt.le).mp same.symm
  have := Nat.le_of_dvd (by omega) divides
  omega

/-- The slots of the last `W` bytes hold them after the byte `b0` is written in its slot (rule R42). -/
theorem wbufWrite_holds_last {stream : List U8} {w : Nat} {buf : List U8} (pos : 0 < w) (length : buf.length = w)
    (holds : ∀ j, stream.length - w ≤ j → j < stream.length → buf[slotOf w j]? = stream[j]?) (b0 : U8) (j : Nat)
    (recent : stream.length + 1 - w ≤ j) (lt : j < stream.length + 1) :
    (wbufWrite buf (slotOf w stream.length) b0)[slotOf w j]? = (stream ++ [b0])[j]? := by
  rw [wbufWrite]
  rcases Nat.lt_succ_iff_lt_or_eq.mp lt with before | rfl
  · rw [List.getElem?_set_ne (slotOf_ne before (by omega)), List.getElem?_append_left before]
    exact holds j (by omega) before
  · rw [List.getElem?_set_self (length ▸ slotOf_lt pos _), List.getElem?_concat_length]

/-! ### The scan invariant -/

/-- The scan unit of a state that no byte of a stream has reached (rules R41, R195). -/
theorem scanRel_nil_of_cleared {s : State} (sum : s.scanSum = 0#32) (pos : s.scanPos = 0#32)
    (wbuf : s.wbuf = wbufClear s.params.w) (hist : s.hist = []) : ScanRel [] s where
  pos := by rw [pos]; rfl
  sum := by simpa using sum
  bufLength := by rw [wbuf, wbufClear, List.length_replicate]
  buf := fun j _ lt => absurd lt (Nat.not_lt_zero j)
  bufClear := fun k _ lt => by rw [wbuf, wbufClear, List.getElem?_replicate_of_lt lt]
  histWf := hist ▸ Hist.nil_wf
  hist := fun a => by
    have noWindow : windowCount s.params.w 0 = 0 := if_neg s.params.w_pos.not_ge
    rw [hist, List.length_nil, noWindow, if_neg (by omega), Hist.lookup_nil]

namespace ScanRel

variable {stream : List U8} {s t : State} {o : Nat}

/-- The invariant speaks of the scan unit and the parameters alone. -/
theorem of_fields (rel : ScanRel stream s) (params : t.params = s.params) (sum : t.scanSum = s.scanSum)
    (pos : t.scanPos = s.scanPos) (wbuf : t.wbuf = s.wbuf) (hist : t.hist = s.hist) : ScanRel stream t where
  pos := by rw [pos, rel.pos]
  sum := by rw [sum, params, rel.sum]
  bufLength := by rw [wbuf, params, rel.bufLength]
  buf := by rw [wbuf, params]; exact rel.buf
  bufClear := by rw [wbuf, params]; exact rel.bufClear
  histWf := hist ▸ rel.histWf
  hist := by rw [hist, params]; exact rel.hist

theorem wvalid_eq (rel : ScanRel stream s) : s.wvalid = decide (s.params.w ≤ stream.length) := by
  rw [State.wvalid, rel.pos]

/-- Whatever becomes of `HIST`: a byte taken in carries `SCAN_POS`, `SCAN_SUM` and `WBUF` to the longer stream. -/
theorem of_byte_taken (rel : ScanRel stream s) (notLast : s.scanPos ≠ 0xFFFFFFFF#32) {b0 : U8}
    (params : t.params = s.params) (pos : t.scanPos = s.scanPos + 1#32)
    (sum : t.scanSum = scanChecksum b0 s) (wbuf : t.wbuf = wbufWrite s.wbuf (slotOf s.params.w s.scanPos.toNat) b0)
    (histWf : t.hist.Wf)
    (hist : ∀ a, Hist.lookup t.hist a =
      if windowCount s.params.w (stream.length + 1) - s.params.histDepth ≤ a ∧
          a < windowCount s.params.w (stream.length + 1) then
        some (windowSum s.params.w (stream ++ [b0]) a)
      else none) : ScanRel (stream ++ [b0]) t := by
  have length : (stream ++ [b0]).length = stream.length + 1 := by simp
  have wpos := s.params.w_pos
  rw [rel.pos] at wbuf
  constructor
  case pos => rw [pos, (scanPos_add_one_toNat notLast).1, rel.pos, length]
  case sum => rw [sum, rel.scanChecksum_eq_crc, params, length]
  case bufLength => rw [wbuf, wbufWrite_length, rel.bufLength, params]
  case buf =>
    rw [length, params, wbuf]
    exact wbufWrite_holds_last wpos rel.bufLength rel.buf b0
  case bufClear =>
    intro k unreached lt
    rw [params] at lt
    rw [length] at unreached
    have slot : slotOf s.params.w stream.length = stream.length := Nat.mod_eq_of_lt (by omega)
    rw [wbuf, wbufWrite, slot, List.getElem?_set_ne (by omega)]
    exact rel.bufClear k (by omega) lt
  case histWf => exact histWf
  case hist => rw [length, params]; exact hist

/-- Before the first window is complete, a byte leaves `HIST` empty (rules R33, R185). -/
theorem after_scanShift (rel : ScanRel stream s) (notLast : s.scanPos ≠ 0xFFFFFFFF#32)
    (fill : stream.length + 1 < s.params.w) (b0 : U8) : ScanRel (stream ++ [b0]) (scanShift b0 s) := by
  refine rel.of_byte_taken notLast rfl rfl rfl rfl rel.histWf fun a => ?_
  have none_before : windowCount s.params.w stream.length = 0 := if_neg (by omega)
  have none_after : windowCount s.params.w (stream.length + 1) = 0 := if_neg (by omega)
  rw [scanShift_hist, rel.hist a, none_before, none_after, if_neg (by omega), if_neg (by omega)]

/-- A completed window enters `HIST` under its checksum, and the one `HIST_DEPTH` back leaves it (rule R188). -/
theorem after_completeWindow (rel : ScanRel stream s) (notLast : s.scanPos ≠ 0xFFFFFFFF#32)
    (offset : o + s.params.w = stream.length + 1) (b0 : U8) :
    ScanRel (stream ++ [b0]) (completeWindow o (scanChecksum b0 s) (scanShift b0 s)) := by
  have dpos := s.params.histDepth_pos
  refine rel.of_byte_taken notLast rfl rfl rfl rfl (Hist.update_wf rel.histWf ..) fun a => ?_
  have before : windowCount s.params.w stream.length = o := windowCount_eq offset
  have after : windowCount s.params.w (stream.length + 1) = o + 1 := windowCount_eq (by omega)
  rw [completeWindow_hist, scanShift_hist, scanShift_params, Hist.lookup_update rel.histWf dpos, rel.hist a, before,
    after]
  by_cases new : a = o
  · subst new
    rw [if_pos rfl, if_pos (by omega), rel.scanChecksum_eq_windowSum offset]
  · rw [if_neg new]
    by_cases kept : o + 1 - s.params.histDepth ≤ a ∧ a < o
    · rw [if_neg (by omega), if_pos (by omega), if_pos (by omega), windowSum_append (by omega)]
    · rw [if_neg (c := _ ∧ a < o + 1) (by omega)]
      split
      · rfl
      · exact if_neg (by omega)

end ScanRel

/-! ### The comparison loop -/

/-- The comparison is the loop over `a = lo, ..., o - 1` (rule R183). -/
theorem equalOffsets_eq_filter_range' {h : Hist} (wf : h.Wf) (lo o : Nat) (v : U32) :
    h.equalOffsets lo o v = (List.range' lo (o - lo)).filter (fun a => h.lookup a == some v) := by
  refine (Hist.equalOffsets_sorted wf lo o v).eq_of_mem_iff (List.Pairwise.filter _ List.pairwise_lt_range') fun a => ?_
  rw [Hist.mem_equalOffsets wf, List.mem_filter, List.mem_range'_1, beq_iff_eq]
  constructor
  · rintro ⟨ge, lt, found⟩; exact ⟨by omega, found⟩
  · rintro ⟨range, found⟩; exact ⟨by omega, by omega, found⟩

/-- The checksum of the pseudocode, with the outgoing byte's rolling entry written as `crc` (rules R113, R186). -/
theorem scanChecksum_eq {s : State} {outb : U8}
    (slot : s.params.w ≤ s.scanPos.toNat → s.wbuf[s.scanPos.toNat % s.params.w]? = some outb) (b0 : U8) :
    scanChecksum b0 s =
      if s.scanPos.toNat < s.params.w then updateByte s.scanSum b0
      else updateByte (s.scanSum ^^^ crc 0#32 (outb :: List.replicate (s.params.w - 1) 0#8)) b0 := by
  unfold scanChecksum
  split
  case isTrue => rfl
  case isFalse slide => rw [slotOf, wbufRead_of_getElem? (slot (Nat.not_lt.mp slide)), rollUpdate_eq_crc]

/-- A reported pair is an offset below `o`, of the same checksum, and `o` (rule R187). -/
theorem exists_of_matchPair_mem {h : Hist} {depth o : Nat} {v x y : U32}
    (mem : Record.matchPair x y ∈ matchRecords h depth o v) :
    ∃ a, a < o ∧ x = BitVec.ofNat 32 a ∧ y = BitVec.ofNat 32 o := by
  obtain ⟨a, reported, ⟨⟩⟩ := List.mem_map.mp mem
  obtain ⟨e, held, rfl⟩ := List.mem_map.mp reported
  obtain ⟨-, found⟩ := List.mem_filter.mp held
  exact ⟨e.1, by simp at found; omega, rfl, rfl⟩

/-- The first window of a stream has none before it. -/
theorem matchRecords_zero (h : Hist) (depth : Nat) (v : U32) : matchRecords h depth 0 v = [] := by
  simp [matchRecords, Hist.equalOffsets]

/-! ### Streams of at most one window -/

/-- `SCAN_BYTE` of a byte that completes no window after the first emits nothing (rule R191). -/
theorem ScanRel.exec_scanByte_silent {stream : List U8} {s : State} (rel : ScanRel stream s)
    (notLast : s.scanPos ≠ 0xFFFFFFFF#32) (fill : stream.length + 1 ≤ s.params.w) (b0 : U8) :
    ∃ t, exec (.scanByte b0) s = .next t ∧ ScanRel (stream ++ [b0]) t ∧ t.out = s.out ∧ t.params = s.params := by
  rcases Nat.lt_or_eq_of_le fill with noWindow | first
  · exact ⟨_, execScanByte_noWindow notLast (by rwa [rel.pos]) b0, rel.after_scanShift notLast noWindow b0, rfl, rfl⟩
  · have offset : 0 + s.params.w = stream.length + 1 := by omega
    refine ⟨_, rel.exec_scanByte_window notLast offset b0, rel.after_completeWindow notLast offset b0, ?_, rfl⟩
    rw [completeWindow_out, matchRecords_zero, List.append_nil, scanShift_out]

/-- Bytes that stay within the first window emit nothing. -/
theorem ScanRel.issueAll_scanBytes {stream data : List U8} {s : State} (rel : ScanRel stream s)
    (fill : stream.length + data.length ≤ s.params.w) (fits : stream.length + data.length < 2 ^ 32) :
    ∃ t, issueAll (wordsOf (data.map .scanByte)) s = .next t ∧ ScanRel (stream ++ data) t ∧ t.out = s.out ∧
      t.params = s.params := by
  induction data generalizing stream s with
  | nil => exact ⟨s, rfl, by rwa [List.append_nil], rfl, rfl⟩
  | cons b data ih =>
    rw [List.length_cons] at fill fits
    have notLast : s.scanPos ≠ 0xFFFFFFFF#32 := by
      intro last
      have length : stream.length = 0xFFFFFFFF := by rw [← rel.pos, last]; rfl
      omega
    obtain ⟨u, runs, rel', out', params'⟩ := rel.exec_scanByte_silent notLast (by omega) b
    obtain ⟨t, issued, rel'', out'', params''⟩ := ih rel' (by rw [params']; simp; omega) (by simp; omega)
    exact ⟨t, (issueAll_wordsOf_cons rfl runs _).trans issued, by simpa using rel'', out''.trans out',
      params''.trans params'⟩

/-! ### The obligations -/

/-- Settles O38: the two cases of `SCAN_BYTE` below the last position, with and without a completed window. -/
theorem scanByteKeepsTheScanInvariant : Obligations.ScanByteKeepsTheScanInvariant := by
  intro stream s b0 rel notLast
  rcases Nat.lt_or_ge (stream.length + 1) s.params.w with fill | full
  · have rel' := rel.after_scanShift notLast fill b0
    exact ⟨_, execScanByte_noWindow notLast (by rwa [rel.pos]) b0, rel', rel'.wvalid_eq, rfl, rfl, rfl, rfl, rfl, rfl⟩
  · have offset := Nat.sub_add_cancel full
    have rel' := rel.after_completeWindow notLast offset b0
    exact ⟨_, rel.exec_scanByte_window notLast offset b0, rel', rel'.wvalid_eq, rfl, rfl, rfl, rfl, rfl, rfl⟩

/-- Settles O35: the two cases of `SCAN_BYTE` field by field, the comparison as a loop by
`equalOffsets_eq_filter_range'`. -/
theorem scanByteFollowsItsPseudocode : Obligations.ScanByteFollowsItsPseudocode := by
  intro s b0 outb notLast wf slot
  have moved := (scanPos_add_one_toNat notLast).1
  rcases Nat.lt_or_ge (s.scanPos.toNat + 1) s.params.w with fill | full
  · refine ⟨_, _, _, _, execScanByte_noWindow notLast fill b0, rfl, rfl, rfl, scanChecksum_eq slot b0, moved, rfl, rfl,
      rfl, rfl, rfl, rfl, rfl, fun _ => ⟨rfl, rfl⟩, fun complete => absurd complete (Nat.not_le.mpr fill)⟩
  · refine ⟨_, _, _, _, execScanByte_window notLast full b0, rfl, rfl, rfl, scanChecksum_eq slot b0, moved, rfl, rfl,
      rfl, rfl, rfl, rfl, rfl, fun fill => absurd fill (Nat.not_lt.mpr full), fun _ => ?_⟩
    rw [← scanChecksum_eq slot b0]
    refine ⟨?_, fun a => Hist.lookup_update wf s.params.histDepth_pos _ a⟩
    rw [completeWindow_out, matchRecords, scanShift_hist, scanShift_params, equalOffsets_eq_filter_range' wf]
    rfl

/-- Settles O40: the reported pairs are those of `ScanRel.matchPair_mem_iff`. -/
theorem matchesAreCompleteAndAreCandidates : Obligations.MatchesAreCompleteAndAreCandidates := by
  intro stream s b0 rel notLast
  rcases Nat.lt_or_ge (stream.length + 1) s.params.w with fill | full
  · exact ⟨_, [], execScanByte_noWindow notLast (by rwa [rel.pos]) b0, (List.append_nil _).symm,
      fun a o offset => by omega, fun x y mem => absurd mem List.not_mem_nil⟩
  · obtain ⟨o, offset⟩ : ∃ o, o + s.params.w = stream.length + 1 := ⟨_, Nat.sub_add_cancel full⟩
    have short := rel.length_lt
    have wpos := s.params.w_pos
    refine ⟨_, _, rel.exec_scanByte_window notLast offset b0, rfl, ?complete, ?candidate⟩
    case complete =>
      intro a o' offset' lt near same
      obtain rfl : o' = o := by omega
      exact (rel.matchPair_mem_iff offset b0 lt).mpr ⟨near, congrArg (crc 0#32) same⟩
    case candidate =>
      intro x y mem
      obtain ⟨a, lt, rfl, rfl⟩ := exists_of_matchPair_mem mem
      obtain ⟨-, same⟩ := (rel.matchPair_mem_iff offset b0 lt).mp mem
      rw [BitVec.toNat_ofNat, BitVec.toNat_ofNat, Nat.mod_eq_of_lt (by omega), Nat.mod_eq_of_lt (by omega)]
      exact ⟨lt, offset, same⟩

/-- Settles O41: bytes within the first window emit nothing, and a cleared scan unit is in its reset state. -/
theorem streamsUpToOneWindowEmitNoMatch : Obligations.StreamsUpToOneWindowEmitNoMatch := by
  refine ⟨fun s data rel short fits => ?silent, fun s rel => rel.execScanEnd_of_cleared⟩
  case silent =>
    obtain ⟨t, issued, rel', out, params⟩ :=
      rel.issueAll_scanBytes (data := data) (by simpa using short) (by simpa using fits)
    refine ⟨t, issued, out, ?_⟩
    rw [rel'.wvalid_eq, params, List.nil_append]
    exact decide_eq_decide.mpr ⟨fun complete => Nat.le_antisymm short complete, fun same => same.ge⟩

end Sys2Proof.Machine

/-! ## Proofs of the invariant of every run, of the commands' frames and of commands that commute

SUPPORT. A command leaves the scan unit as it was, takes one byte into it or clears it, and each of these keeps
`ScanInv` (`exec_keeps_scanInv`); the records it appends hold no `MATCH` but those of a completed window, which pair
an earlier offset with the window's own (`exec_keeps_matchInv`). `REM` and the scan unit are separate fields, so a
command that writes one reads the same in the other (`RemCommand.exec_eq`, `exec_withRem_of_scanCommand`). -/

namespace Sys2Proof.Machine

/-! ### The scan invariant under a command -/

theorem State.ScanInv.of_fields {s t : State} (inv : s.ScanInv) (params : t.params = s.params)
    (sum : t.scanSum = s.scanSum) (pos : t.scanPos = s.scanPos) (wbuf : t.wbuf = s.wbuf) (hist : t.hist = s.hist) :
    t.ScanInv := by
  obtain ⟨stream, rel⟩ := inv
  exact ⟨stream, rel.of_fields params sum pos wbuf hist⟩

/-- The stream a command leaves the scan unit with: the same one, one byte more, or a new one (rule R190). -/
theorem exec_keeps_scanInv {i : Instr} {s t : State} (h : exec i s = .next t) (inv : s.ScanInv) : t.ScanInv := by
  rcases exec_cases i s with
    ⟨-, h'⟩ | ⟨f, h'⟩ | ⟨v, -, h'⟩ | ⟨v, -, h'⟩ | ⟨b0, -, notLast, fill, h'⟩ | ⟨b0, -, notLast, full, h'⟩ | ⟨-, h'⟩
  all_goals obtain rfl := Host.Outcome.next.inj (h'.symm.trans h)
  · exact inv
  · exact inv.of_fields rfl rfl rfl rfl rfl
  · exact inv.of_fields rfl rfl rfl rfl rfl
  · exact inv.of_fields rfl rfl rfl rfl rfl
  · obtain ⟨stream, rel⟩ := inv
    exact ⟨stream ++ [b0], rel.after_scanShift notLast (rel.pos ▸ fill) b0⟩
  · obtain ⟨stream, rel⟩ := inv
    rw [rel.pos] at full ⊢
    exact ⟨stream ++ [b0], rel.after_completeWindow notLast (Nat.sub_add_cancel full) b0⟩
  · exact ⟨[], scanRel_nil_of_cleared rfl rfl rfl rfl⟩

theorem issue_keeps_scanInv {c : U72} {s t : State} (h : issue c s = .next t) (inv : s.ScanInv) : t.ScanInv := by
  rcases issue_cases c s with ⟨i, -, h'⟩ | ⟨-, h'⟩
  · exact exec_keeps_scanInv (h'.symm.trans h) inv
  · obtain rfl := Host.Outcome.next.inj (h'.symm.trans h)
    exact inv.of_fields rfl rfl rfl rfl rfl

/-! ### `MATCH` records under a command -/

theorem State.MatchInv.append {s t : State} {rs : List Record} (inv : s.MatchInv) (out : t.out = s.out ++ rs)
    (ordered : ∀ a b, Record.matchPair a b ∈ rs → a < b) : t.MatchInv := by
  intro a b mem
  rw [out] at mem
  rcases List.mem_append.mp mem with before | new
  · exact inv a b before
  · exact ordered a b new

theorem State.MatchInv.of_out {s t : State} (inv : s.MatchInv) (out : t.out = s.out) : t.MatchInv := by
  intro a b mem
  exact inv a b (out ▸ mem)

theorem matchRecords_ordered (h : Hist) (depth : Nat) {o : Nat} (fits : o < 2 ^ 32) (v : U32) :
    ∀ a b, Record.matchPair a b ∈ matchRecords h depth o v → a < b := by
  intro a b mem
  obtain ⟨x, below, rfl, rfl⟩ := exists_of_matchPair_mem mem
  rw [BitVec.lt_def, BitVec.toNat_ofNat, BitVec.toNat_ofNat, Nat.mod_eq_of_lt (by omega), Nat.mod_eq_of_lt fits]
  exact below

/-- Every `MATCH` a command emits has its smaller offset first (rule R73). -/
theorem exec_keeps_matchInv {i : Instr} {s t : State} (h : exec i s = .next t) (inv : s.MatchInv) : t.MatchInv := by
  rcases exec_cases i s with
    ⟨-, h'⟩ | ⟨f, h'⟩ | ⟨v, -, h'⟩ | ⟨v, -, h'⟩ | ⟨b0, -, -, -, h'⟩ | ⟨b0, -, notLast, -, h'⟩ | ⟨-, h'⟩
  all_goals obtain rfl := Host.Outcome.next.inj (h'.symm.trans h)
  · exact inv
  · exact inv.append (raise_out ..) (by simp)
  · exact inv.append (emit_out ..) (by simp)
  · exact inv.of_out rfl
  · exact inv.of_out rfl
  · have fits := (scanPos_add_one_toNat notLast).2
    exact inv.append (completeWindow_out ..) (matchRecords_ordered _ _ (by omega) _)
  · exact inv.of_out rfl

theorem issue_keeps_matchInv {c : U72} {s t : State} (h : issue c s = .next t) (inv : s.MatchInv) : t.MatchInv := by
  rcases issue_cases c s with ⟨i, -, h'⟩ | ⟨-, h'⟩
  · exact exec_keeps_matchInv (h'.symm.trans h) inv
  · obtain rfl := Host.Outcome.next.inj (h'.symm.trans h)
    exact inv.append (raise_out ..) (by simp)

/-! ### The invariant of every run -/

theorem State.PortInv.step {s t : State} (inv : s.PortInv) (h : step s = .next t) : t.PortInv := by
  obtain ⟨rs, emits⟩ := step_emits h
  have taken : s.taken ≤ s.out.length := inv
  rw [State.PortInv, emits.taken, emits.out, List.length_append]
  omega

theorem State.Inv.step {s t : State} (inv : s.Inv) (h : step s = .next t) : t.Inv := by
  have fault := inv.fault.step h
  have port := inv.port.step h
  rcases step_cases h with ⟨-, rfl⟩ | ⟨c, rest, -, issued⟩
  · exact inv
  · have consumed : (s.withCmds rest).ScanInv := inv.scan.of_fields rfl rfl rfl rfl rfl
    exact ⟨issue_keeps_scanInv issued consumed, fault, issue_keeps_matchInv issued (inv.matched.of_out rfl), port⟩

theorem State.resetOf_inv (p : Params) : (State.resetOf p).Inv where
  scan := ⟨[], scanRel_nil_of_cleared rfl rfl rfl rfl⟩
  fault := ⟨rfl, rfl⟩
  matched := fun _ _ mem => absurd mem List.not_mem_nil
  port := Nat.le_refl 0

theorem State.take_inv {s : State} (inv : s.Inv) : s.take.Inv := by
  unfold State.take
  split
  case h_1 r pending =>
    obtain ⟨left, -⟩ := List.getElem?_eq_some_iff.mp pending
    exact ⟨inv.scan.of_fields rfl rfl rfl rfl rfl, inv.fault, inv.matched, left⟩
  case h_2 => exact inv

theorem hostAct_inv (a : HostAct) {s : State} (inv : s.Inv) : (hostAct a s).Inv := by
  cases a with
  | offer c => exact ⟨inv.scan.of_fields rfl rfl rfl rfl rfl, inv.fault, inv.matched, inv.port⟩
  | take => exact State.take_inv inv
  | reset => exact State.resetOf_inv s.params

/-! ### Commands that commute -/

/-- A command that uses `REM`: it exists and is batched, `ROLL_STEP`, or `WRREG REM` (rule R274). -/
def RemCommand (sm : SliceMax) (i : Instr) : Prop :=
  i.wellFormed sm = true ∧
    ((batchedData i).isSome = true ∨ (∃ inb outb, i = .rollStep inb outb) ∨ ∃ val, i = .wrreg 0#8 val)

/-- It writes `REM` alone, with a value that depends on `REM` and the parameters alone. -/
theorem RemCommand.exec_eq {i : Instr} {s : State} (uses : RemCommand s.params.sliceMax i) :
    ∃ v, ∀ t : State, t.params = s.params → t.rem = s.rem → exec i t = .next (t.withRem v) := by
  obtain ⟨present, batched | ⟨inb, outb, rfl⟩ | ⟨val, rfl⟩⟩ := uses
  · obtain ⟨bytes, data⟩ := Option.isSome_iff_exists.mp batched
    exact ⟨crc s.rem bytes, fun t params rem => by
      rw [exec_of_batchedData (by rwa [params]) data, rem]⟩
  · exact ⟨_, fun t params rem => exec_rollStep_of_value (by rw [params]) rem rfl⟩
  · exact ⟨val, fun t _ _ => exec_wrreg_rem val t⟩

/-- A scan command does not use `REM` (rule R180). -/
theorem exec_withRem_of_scanCommand {j : Instr} (scan : (∃ b0, j = .scanByte b0) ∨ j = .scanEnd) (s : State) :
    ∃ u, exec j s = .next u ∧ u.params = s.params ∧ u.rem = s.rem ∧
      ∀ v, exec j (s.withRem v) = .next (u.withRem v) := by
  rcases scan with ⟨b0, rfl⟩ | rfl
  · by_cases last : s.scanPos = 0xFFFFFFFF#32
    · exact ⟨_, execScanByte_overflow last b0, rfl, rfl, fun v => execScanByte_overflow (s := s.withRem v) last b0⟩
    · rcases Nat.lt_or_ge (s.scanPos.toNat + 1) s.params.w with fill | full
      · exact ⟨_, execScanByte_noWindow last fill b0, rfl, rfl,
          fun v => execScanByte_noWindow (s := s.withRem v) last fill b0⟩
      · exact ⟨_, execScanByte_window last full b0, rfl, rfl,
          fun v => execScanByte_window (s := s.withRem v) last full b0⟩
  · exact ⟨_, execScanEnd_eq s, rfl, rfl, fun v => execScanEnd_eq (s.withRem v)⟩

/-! ### The obligations -/

/-- Settles O55: the scan invariant by the stream a command leaves, the fault invariant by `State.FaultInv.step`, and
the records by what a command emits. -/
theorem everyStepKeepsTheInvariant : Obligations.EveryStepKeepsTheInvariant :=
  fun _ _ inv h => inv.step h

/-- Settles O54: the empty stream explains the reset state. -/
theorem resetMeetsTheInvariant : Obligations.ResetMeetsTheInvariant :=
  ⟨State.resetOf_inv, State.resetOf_inv _⟩

/-- Settles O56: an offer and a take change the port fields alone, and reset meets the invariant. -/
theorem everyHostActKeepsTheInvariant : Obligations.EveryHostActKeepsTheInvariant :=
  ⟨fun a _ => hostAct_inv a, fun _ _ => rfl, fun _ => rfl⟩

/-- Settles O44: one side writes `REM` alone, the other neither reads nor writes it. -/
theorem scanAndRemCommandsCommute : Obligations.ScanAndRemCommandsCommute := by
  intro s i j present uses scan
  obtain ⟨v, writes⟩ := RemCommand.exec_eq ⟨present, uses⟩
  obtain ⟨u, runs, params, rem, alike⟩ := exec_withRem_of_scanCommand scan s
  exact ⟨s.withRem v, u, u.withRem v, writes s rfl rfl, runs, alike v, writes u params rem⟩

/-- Settles O45, by the cases of `exec_cases`. -/
theorem eachCommandWritesOnlyItsOwnState : Obligations.EachCommandWritesOnlyItsOwnState := by
  intro i s t h
  rcases exec_cases i s with
    ⟨-, h'⟩ | ⟨f, h'⟩ | ⟨v, -, h'⟩ | ⟨v, writer, h'⟩ | ⟨b0, scan, -, -, h'⟩ | ⟨b0, scan, -, -, h'⟩ | ⟨scan, h'⟩
  all_goals obtain rfl := Host.Outcome.next.inj (h'.symm.trans h)
  · exact ⟨fun changed => absurd rfl changed, fun changed => by simp at changed, rfl, rfl, rfl⟩
  · exact ⟨fun changed => absurd rfl changed, fun changed => by simp at changed, rfl, rfl, rfl⟩
  · exact ⟨fun changed => absurd rfl changed, fun changed => by simp at changed, rfl, rfl, rfl⟩
  · exact ⟨fun _ => writer, fun changed => by simp at changed, rfl, rfl, rfl⟩
  · exact ⟨fun changed => absurd rfl changed, fun _ => .inl ⟨b0, scan⟩, rfl, rfl, rfl⟩
  · exact ⟨fun changed => absurd rfl changed, fun _ => .inl ⟨b0, scan⟩, rfl, rfl, rfl⟩
  · exact ⟨fun changed => absurd rfl changed, fun _ => .inr scan, rfl, rfl, rfl⟩

end Sys2Proof.Machine

/-! ## Proofs on the assembler: the line of a command reads back as the command

SUPPORT. A line is a mnemonic and operands, all of word characters, so it is split where `lineOf` put its spaces and
commas (`assembleLine_of_operands`). The operands read back because digits are read from the most significant one on,
the order in which they are written (`digitsValue_concat`). -/

namespace Sys2Proof.Machine

/-! ### Splitting a line -/

/-- A character that may stand in a word (rule R82; log entry 15). -/
def isWordChar (c : Char) : Bool := c.isAlphanum || c == '_' || c == '.'

/-- A mnemonic or an operand: not empty, of word characters. -/
def isWord (cs : List Char) : Bool := !cs.isEmpty && cs.all isWordChar

theorem isWord_iff (cs : List Char) : isWord cs = true ↔ cs ≠ [] ∧ ∀ c ∈ cs, isWordChar c = true := by
  simp [isWord]

/-- Words separated as `lineOf` separates operands. -/
def operandsText : List (List Char) → List Char
  | [] => []
  | [x] => x
  | x :: xs => x ++ ',' :: ' ' :: operandsText xs

/-- The tokens of words separated by commas. -/
def operandTokens (ops : List (List Char)) : List Token := (ops.map Token.word).intersperse .comma

theorem tokens_nil (acc : List Char) : tokens acc [] = some (wordToken acc) := tokens.eq_2 acc

theorem tokens_cons_wordChar {c : Char} (h : isWordChar c = true) (acc rest : List Char) :
    tokens acc (c :: rest) = tokens (acc ++ [c]) rest := by
  have other {x : Char} (hx : isWordChar x = false) : c ≠ x := by
    rintro rfl
    exact absurd (h.symm.trans hx) (by decide)
  have char : c.isAlphanum = true ∨ c = '_' ∨ c = '.' := by simpa [isWordChar, or_assoc] using h
  have quote : c ≠ '\'' := other (by decide)
  have semicolon : c ≠ ';' := other (by decide)
  have comma : c ≠ ',' := other (by decide)
  have space : c ≠ ' ' := other (by decide)
  have tab : c ≠ '\t' := other (by decide)
  rw [tokens.eq_3 _ _ _ fun _ _ same => absurd same quote, if_neg semicolon, if_neg comma,
    if_neg (by simp [space, tab])]
  exact if_pos char

theorem tokens_append {cs : List Char} (h : ∀ c ∈ cs, isWordChar c = true) (acc rest : List Char) :
    tokens acc (cs ++ rest) = tokens (acc ++ cs) rest := by
  induction cs generalizing acc with
  | nil => rw [List.nil_append, List.append_nil]
  | cons c cs ih =>
    obtain ⟨hc, hcs⟩ := List.forall_mem_cons.mp h
    rw [List.cons_append, tokens_cons_wordChar hc, ih hcs, List.append_assoc, List.singleton_append]

theorem tokens_space (acc rest : List Char) :
    tokens acc (' ' :: rest) = (tokens [] rest).map (fun ts => wordToken acc ++ ts) := by
  rw [tokens.eq_3 _ _ _ fun _ _ same => absurd same (by decide)]
  rfl

theorem tokens_comma (acc rest : List Char) :
    tokens acc (',' :: rest) = (tokens [] rest).map (fun ts => wordToken acc ++ .comma :: ts) := by
  rw [tokens.eq_3 _ _ _ fun _ _ same => absurd same (by decide)]
  rfl

theorem wordToken_of_ne_nil {cs : List Char} (h : cs ≠ []) : wordToken cs = [.word cs] := by
  cases cs with
  | nil => exact absurd rfl h
  | cons c cs => rfl

theorem tokens_operandsText {ops : List (List Char)} (words : ∀ x ∈ ops, isWord x = true) :
    tokens [] (operandsText ops) = some (operandTokens ops) := by
  induction ops using operandsText.induct with
  | case1 => rfl
  | case2 x =>
    obtain ⟨ne, chars⟩ := (isWord_iff x).mp (words x List.mem_cons_self)
    have split := tokens_append chars [] []
    rw [List.append_nil, List.nil_append, tokens_nil, wordToken_of_ne_nil ne] at split
    exact split
  | case3 x xs more ih =>
    obtain ⟨first, others⟩ := List.forall_mem_cons.mp words
    obtain ⟨ne, chars⟩ := (isWord_iff x).mp first
    obtain ⟨y, ys, rfl⟩ := List.exists_cons_of_ne_nil more
    rw [operandsText.eq_3 _ _ more, tokens_append chars, List.nil_append, tokens_comma, tokens_space, ih others,
      wordToken_of_ne_nil ne]
    rfl

theorem operandsOf_operandTokens (ops : List (List Char)) :
    operandsOf (operandTokens ops) = some (ops.map .word) := by
  induction ops with
  | nil => rfl
  | cons x xs ih =>
    cases xs with
    | nil => rfl
    | cons y ys =>
      have step : operandTokens (x :: y :: ys) = .word x :: .comma :: operandTokens (y :: ys) := rfl
      rw [step, operandsOf.eq_5 _ _ Token.noConfusion, ih]
      rfl

/-- A line of a mnemonic and operands is split into them. -/
theorem assembleLine_of_operands {m : List Char} {ops : List (List Char)} (mnemonic : isWord m = true)
    (words : ∀ x ∈ ops, isWord x = true) (p : Params) :
    assembleLine p (m ++ ' ' :: operandsText ops) = commandsOf p m (ops.map .word) := by
  obtain ⟨ne, chars⟩ := (isWord_iff m).mp mnemonic
  rw [assembleLine, tokens_append chars, List.nil_append, tokens_space, tokens_operandsText words,
    wordToken_of_ne_nil ne]
  simp [operandsOf_operandTokens]

/-! ### Digits -/

/-- One more digit at the end, the least significant one. -/
theorem digitsValue_concat {base acc v d : Nat} {cs : List Char} {c : Char} (front : digitsValue base acc cs = some v)
    (digit : digitValue c = some d) (lt : d < base) : digitsValue base acc (cs ++ [c]) = some (v * base + d) := by
  induction cs generalizing acc with
  | nil =>
    obtain rfl := Option.some.inj front
    simp [digitsValue, digit, lt]
  | cons x cs ih =>
    simp only [List.cons_append, digitsValue] at front ⊢
    split at front
    case h_1 e first =>
      split at front
      case isTrue small => simpa [first, small] using ih front
      case isFalse => cases front
    case h_2 => cases front

theorem digitValue_hexDigit {n : Nat} (h : n < 16) : digitValue (hexDigit n) = some n := by
  revert n
  decide

theorem isWordChar_hexDigit {n : Nat} (h : n < 16) : isWordChar (hexDigit n) = true := by
  revert n
  decide

theorem digitsValue_hexDigits (k n : Nat) : digitsValue 16 0 (hexDigits k n) = some (n % 16 ^ k) := by
  induction k generalizing n with
  | zero => rw [Nat.pow_zero, Nat.mod_one]; rfl
  | succ k ih =>
    have digit : n % 16 < 16 := Nat.mod_lt n (by decide)
    rw [hexDigits, digitsValue_concat (ih (n / 16)) (digitValue_hexDigit digit) digit, Nat.pow_succ',
      Nat.mod_mul, Nat.mul_comm, Nat.add_comm]

theorem isWordChar_of_mem_hexDigits {k n : Nat} : ∀ c ∈ hexDigits k n, isWordChar c = true := by
  induction k generalizing n with
  | zero => exact fun c mem => absurd mem List.not_mem_nil
  | succ k ih =>
    intro c mem
    rcases List.mem_append.mp mem with front | last
    · exact ih c front
    · rw [List.mem_singleton.mp last]
      exact isWordChar_hexDigit (Nat.mod_lt n (by decide))

theorem digitValue_digitChar {n : Nat} (h : n < 10) : digitValue n.digitChar = some n := by
  revert n
  decide

theorem digitsValue_toDigits (n : Nat) : digitsValue 10 0 (Nat.toDigits 10 n) = some n := by
  induction n using Nat.strongRecOn with
  | ind n ih =>
    rcases Nat.lt_or_ge n 10 with one | more
    · rw [Nat.toDigits_of_lt_base one]
      exact (digitsValue_concat (cs := []) rfl (digitValue_digitChar one) one).trans (by simp)
    · have digit : n % 10 < 10 := Nat.mod_lt n (by decide)
      rw [Nat.toDigits_of_base_le (by decide) more,
        digitsValue_concat (ih (n / 10) (by omega)) (digitValue_digitChar digit) digit]
      exact congrArg some (by omega)

/-! ### Operands -/

/-- A number in hexadecimal as `lineOf` writes it, of `k + 1` digits. -/
def hexText (k n : Nat) : List Char := '0' :: 'x' :: hexDigits (k + 1) n

theorem isWord_hexText (k n : Nat) : isWord (hexText k n) = true := by
  refine (isWord_iff _).mpr ⟨List.cons_ne_nil _ _, ?_⟩
  rw [hexText, List.forall_mem_cons, List.forall_mem_cons]
  exact ⟨by decide, by decide, isWordChar_of_mem_hexDigits⟩

/-- A field whose width the digits cover reads back. -/
theorem fieldOf_hexText {n k : Nat} (fits : 2 ^ n ≤ 16 ^ (k + 1)) (v : BitVec n) :
    fieldOf n (.word (hexText k v.toNat)) = some v := by
  have lt := v.isLt
  have number : numberOf (hexText k v.toNat) = some v.toNat := by
    have value := digitsValue_hexDigits (k + 1) v.toNat
    rw [Nat.mod_eq_of_lt (lt.trans_le fits)] at value
    obtain ⟨c, cs, digits⟩ := List.exists_cons_of_ne_nil (l := hexDigits (k + 1) v.toNat) (by simp [hexDigits])
    rw [digits] at value
    rw [hexText, digits]
    exact value
  rw [fieldOf, number]
  simp [lt]

/-- A number in decimal is a word, with `x` in front too. -/
theorem isWord_x_toDigits (n : Nat) : isWord ('x' :: Nat.toDigits 10 n) = true := by
  refine (isWord_iff _).mpr ⟨List.cons_ne_nil _ _, List.forall_mem_cons.mpr ⟨by decide, fun c mem => ?_⟩⟩
  have digit : c.isDigit = true := Nat.isDigit_of_mem_toDigits (by decide) (by decide) mem
  simp [isWordChar, Char.isAlphanum, digit]

theorem isWord_registerText (reg : U8) : isWord (registerText reg) = true := by
  unfold registerText
  split
  case h_5 => exact isWord_x_toDigits reg.toNat
  all_goals rfl

theorem registerOperand_registerText (reg : U8) : registerOperand (.word (registerText reg)) = some reg := by
  cases named : RegName.ofNumber reg with
  | some r =>
    obtain rfl := RegName.number_of_ofNumber named
    cases r <;> decide
  | none =>
    have text : registerText reg = 'x' :: Nat.toDigits 10 reg.toNat := by rw [registerText, named]
    obtain ⟨c, cs, digits⟩ := List.exists_cons_of_ne_nil (Nat.toDigits_ne_nil (b := 10) (n := reg.toNat))
    have value := digitsValue_toDigits reg.toNat
    rw [digits] at value
    rw [text, digits]
    unfold registerOperand
    simp [value, reg.isLt]

theorem bytesText_eq (bs : List U8) : bytesText bs = operandsText (bs.map byteText) := by
  induction bs using bytesText.induct with
  | case1 => rfl
  | case2 b => rfl
  | case3 b bs more ih =>
    rw [bytesText.eq_3 _ _ more, ih, List.map_cons, operandsText.eq_3 _ _ (by simpa using more), List.append_assoc]
    rfl

theorem bytesOf_byteTexts (bs : List U8) : bytesOf ((bs.map byteText).map .word) = some bs := by
  induction bs with
  | nil => rfl
  | cons b bs ih =>
    have byte : byteOperand (.word (byteText b)) = some b := fieldOf_hexText (k := 1) (by decide) b
    simp only [List.map_cons, bytesOf, byte, ih]

/-- A line of a mnemonic and bytes assembles to the command the mnemonic stands for with those bytes. -/
theorem assembleLine_of_bytes {p : Params} {m : List Char} {bs : List U8} {i : Instr} (mnemonic : isWord m = true)
    (command : ∀ ops, bytesOf ops = some bs → commandsOf p m ops = some [i]) :
    assembleLine p (m ++ ' ' :: bytesText bs) = some [i] := by
  have words : ∀ x ∈ bs.map byteText, isWord x = true := by
    intro x mem
    obtain ⟨b, -, rfl⟩ := List.mem_map.mp mem
    exact isWord_hexText 1 b.toNat
  rw [bytesText_eq, assembleLine_of_operands mnemonic words]
  exact command _ (bytesOf_byteTexts bs)

theorem lineOf_wrreg (reg : U8) (val : U32) :
    lineOf (.wrreg reg val) = "WRREG".toList ++ ' ' :: operandsText [registerText reg, hexText 7 val.toNat] := by
  have pieces : lineOf (.wrreg reg val) =
      "WRREG ".toList ++ registerText reg ++ ", 0x".toList ++ hexDigits 8 val.toNat := rfl
  rw [pieces, List.append_assoc, List.append_assoc]
  rfl

/-! ### The obligation -/

/-- Settles O17: the line is split into its mnemonic and its operands, and each operand reads back. -/
theorem assemblingTheLineOfACommandGivesIt : Obligations.AssemblingTheLineOfACommandGivesIt := by
  intro p i
  cases i with
  | nop | scanEnd => rfl
  | rdreg reg =>
    refine (assembleLine_of_operands (m := "RDREG".toList) (ops := [registerText reg]) rfl
      (by simp [isWord_registerText]) p).trans ?_
    simp [commandsOf, registerOperand_registerText]
  | wrreg reg val =>
    rw [lineOf_wrreg, assembleLine_of_operands rfl (by simp [isWord_registerText, isWord_hexText])]
    simp [commandsOf, registerOperand_registerText, fieldOf_hexText]
  | tblRead idx =>
    refine (assembleLine_of_operands (m := "TBL_READ".toList) (ops := [hexText 2 idx.toNat]) rfl
      (by simp [isWord_hexText]) p).trans ?_
    simp [commandsOf, fieldOf_hexText]
  | crcByte b0 =>
    exact assembleLine_of_bytes (m := "CRC_BYTE".toList) (bs := [b0]) rfl fun ops bytes => by
      simp [commandsOf, bytes]
  | crcSlice4 b0 b1 b2 b3 =>
    exact assembleLine_of_bytes (m := "CRC_SLICE4".toList) (bs := [b0, b1, b2, b3]) rfl fun ops bytes => by
      simp [commandsOf, bytes]
  | crcSlice8 b0 b1 b2 b3 b4 b5 b6 b7 =>
    exact assembleLine_of_bytes (m := "CRC_SLICE8".toList) (bs := [b0, b1, b2, b3, b4, b5, b6, b7]) rfl
      fun ops bytes => by simp [commandsOf, bytes]
  | rollStep inb outb =>
    exact assembleLine_of_bytes (m := "ROLL_STEP".toList) (bs := [inb, outb]) rfl fun ops bytes => by
      simp [commandsOf, bytes]
  | scanByte b0 =>
    exact assembleLine_of_bytes (m := "SCAN_BYTE".toList) (bs := [b0]) rfl fun ops bytes => by
      simp [commandsOf, bytes]

end Sys2Proof.Machine
